-- ==== Sys2Proof/Word.lean ====
section
/-! DEFINITION. The one data width of the LS-8: bytes, addresses and register numbers
(spec `00_scope.md` R5, R6; `10_state.md` R22, R28, R39). -/

namespace Sys2Proof

/-- A byte: every register, memory cell, immediate and operand byte is 8 bits (R5 `XLEN`, R6). -/
abbrev Byte := BitVec 8

/-- An address, and the width of `pc`: 0..255 (R5 `ALEN`, R28, R50). -/
abbrev Addr := BitVec 8

/-- The number of a general register, 0..7 (R22). -/
abbrev RegNum := Fin 8

end Sys2Proof
end

