-- ==== Sys2Proof/Syntax.lean ====
section
/-! DEFINITION. The instruction set: the 13 rows of the opcode table (spec `30_encoding.md` R76). -/

namespace Sys2Proof

/-- An instruction with its operand bytes as they stand in memory (R70, R71). `a` and `b` are REGISTER OPERAND BYTES:
a byte above 7 is a value the byte can have, and the instruction then raises `InvalidRegister` (R74, R169);
`WellFormed.lean` says which instructions have legal register bytes. `imm` is LDI's immediate, any byte (R75). -/
inductive Instr where
  /-- HLT, format Z (R99). -/
  | hlt
  /-- LDI register, immediate, format RI (R110). -/
  | ldi (a imm : Byte)
  /-- PRN register, format R (R111). -/
  | prn (a : Byte)
  /-- MUL registers, format RR (R122). -/
  | mul (a b : Byte)
  /-- ADD registers, format RR (R123). -/
  | add (a b : Byte)
  /-- CMP registers, format RR (R124). -/
  | cmp (a b : Byte)
  /-- PUSH register, format R (R136). -/
  | push (a : Byte)
  /-- POP register, format R (R137). -/
  | pop (a : Byte)
  /-- CALL register, format R (R146). -/
  | call (a : Byte)
  /-- RET, format Z (R147). -/
  | ret
  /-- JEQ register, format R (R148). -/
  | jeq (a : Byte)
  /-- JNE register, format R (R149). -/
  | jne (a : Byte)
  /-- JMP register, format R (R150). -/
  | jmp (a : Byte)
  deriving DecidableEq, Repr

end Sys2Proof
end

