-- ==== Sys2Proof/WellFormed.lean ====
section
/-! DEFINITION. Which instructions are well formed: every register operand byte is 0..7 (spec `30_encoding.md` R74,
R80). Nothing else about an instruction is constrained; LDI's immediate is free (R75). -/

namespace Sys2Proof

/-- A register operand byte is legal when its bits 7..3 are zero, that is when it is at most 7 (R71, R74). -/
def registerByteOk (r : Byte) : Bool := decide (r.toNat ≤ 7)

/-- The register operand bytes of an instruction, in the order in which they are checked: `a` before `b` (R93, R170). -/
def Instr.registerOperands : Instr → List Byte
  | .hlt => []
  | .ldi a _ => [a]
  | .prn a => [a]
  | .mul a b => [a, b]
  | .add a b => [a, b]
  | .cmp a b => [a, b]
  | .push a => [a]
  | .pop a => [a]
  | .call a => [a]
  | .ret => []
  | .jeq a => [a]
  | .jne a => [a]
  | .jmp a => [a]

/-- The instruction names only registers that exist (R74). -/
def Instr.wellFormed (i : Instr) : Bool := i.registerOperands.all registerByteOk

end Sys2Proof
end

