-- ==== Sys2Proof/Decode.lean ====
section
/-! DEFINITION. The opcode table, the decoder and the encoder (spec `30_encoding.md` R70 to R81). -/

namespace Sys2Proof

/-- Why bytes are no instruction. -/
inductive DecodeError where
  /-- The opcode byte is none of the 13 patterns (R79); the cycle raises `IllegalOpcode`. -/
  | illegalOpcode
  /-- The opcode is legal but an operand byte is missing (R81 check 2); the cycle raises `FetchOverrun`. Also the
  answer on no bytes at all, which a fetch never gives: the opcode byte always exists (R91). -/
  | truncated
  deriving DecidableEq, Repr

/-- One row of the opcode table: the full-byte pattern, the mnemonic, the operand count, and the instruction made of
the operand bytes (a row with fewer than two operands ignores the rest). -/
structure OpcodeRow where
  opcode : Byte
  mnemonic : String
  operands : Nat
  build : Byte → Byte → Instr

/-- The opcode table, in the order of R76. -/
def opcodeTable : List OpcodeRow :=
  [ ⟨0b00000001, "HLT", 0, fun _ _ => .hlt⟩,
    ⟨0b10000010, "LDI", 2, fun a b => .ldi a b⟩,
    ⟨0b01000111, "PRN", 1, fun a _ => .prn a⟩,
    ⟨0b10100010, "MUL", 2, fun a b => .mul a b⟩,
    ⟨0b10100000, "ADD", 2, fun a b => .add a b⟩,
    ⟨0b10100111, "CMP", 2, fun a b => .cmp a b⟩,
    ⟨0b01000101, "PUSH", 1, fun a _ => .push a⟩,
    ⟨0b01000110, "POP", 1, fun a _ => .pop a⟩,
    ⟨0b01010000, "CALL", 1, fun a _ => .call a⟩,
    ⟨0b00010001, "RET", 0, fun _ _ => .ret⟩,
    ⟨0b01010101, "JEQ", 1, fun a _ => .jeq a⟩,
    ⟨0b01010110, "JNE", 1, fun a _ => .jne a⟩,
    ⟨0b01010100, "JMP", 1, fun a _ => .jmp a⟩ ]

/-- The row an opcode byte selects: all 8 bits must match (R76, R77). -/
def lookupOpcode (ir : Byte) : Option OpcodeRow := opcodeTable.find? (fun row => decide (row.opcode = ir))

/-- Decode the instruction at the head of a list of bytes, opcode first (R55), and give back the bytes after it. The
opcode byte alone chooses the instruction and its length (R72, R77). -/
def decode : List Byte → Except DecodeError (Instr × List Byte)
  | [] => .error .truncated
  | ir :: rest =>
    match lookupOpcode ir with
    | none => .error .illegalOpcode
    | some row =>
      if row.operands ≤ rest.length then
        .ok (row.build (rest.getD 0 0) (rest.getD 1 0), rest.drop row.operands)
      else .error .truncated

/-- The bytes of an instruction, lowest address first, written from the syntax table of R82 and the layouts of R71. -/
def encode : Instr → List Byte
  | .hlt => [0x01]
  | .ldi a imm => [0x82, a, imm]
  | .prn a => [0x47, a]
  | .mul a b => [0xA2, a, b]
  | .add a b => [0xA0, a, b]
  | .cmp a b => [0xA7, a, b]
  | .push a => [0x45, a]
  | .pop a => [0x46, a]
  | .call a => [0x50, a]
  | .ret => [0x11]
  | .jeq a => [0x55, a]
  | .jne a => [0x56, a]
  | .jmp a => [0x54, a]

/-- The three bytes that stand for the low `nbits` bits of `w`, first byte the least significant; bits above `nbits`
are zero. -/
def wordBytes (nbits w : Nat) : List Byte :=
  [BitVec.ofNat 8 (w % 2 ^ nbits), BitVec.ofNat 8 (w % 2 ^ nbits / 2 ^ 8), BitVec.ofNat 8 (w % 2 ^ nbits / 2 ^ 16)]

/-- The instruction the decoder reads from a word of the opcode table. -/
def decodeTableWord (nbits w : Nat) : Option Instr :=
  match decode (wordBytes nbits w) with
  | .ok (i, _) => some i
  | .error _ => none

end Sys2Proof
end

