-- ==== Sys2Proof/Config.lean ====
section
/-! DEFINITION. The implementation parameters of spec `00_scope.md` R5. Two of them, `SP_RESET` and `MEM_FILL`, are
left open by the spec (decisions D8, D9) with a default; the defaults stand here and `Machine/HostPort.lean` takes
both as arguments of a launch. -/

namespace Sys2Proof

/-- `MEM_SIZE`: number of memory cells (R5, R50). -/
def Config.memSize : Nat := 256

/-- `SP_INDEX`: the register used as stack pointer (R5, R27). -/
def Config.spIndex : RegNum := 7

/-- `SP_RESET`, DESIGN CHOICE (unsafe): the spec's default `0x00` for its open parameter (R5, D8; log entry 1). -/
def Config.spReset : Byte := 0x00

/-- `MEM_FILL`, DESIGN CHOICE (unsafe): the spec's default `0x00` for its open parameter (R5, D9; log entry 2). It is
also what an address that memory does not list reads as. -/
def Config.memFill : Byte := 0x00

/-- `GPR_RESET`: reset value of `x[0]`..`x[6]` (R5, R41; D7; log entry 3). -/
def Config.gprReset : Byte := 0x00

/-- `PC_RESET`: the reset vector (R5, R41, R197; D7; log entry 3). -/
def Config.pcReset : Addr := 0x00

/-- `LOAD_BASE`: address of the first byte of the program image (R5, R199). -/
def Config.loadBase : Nat := 0

/-- The longest instruction is three bytes (R70). -/
def Config.maxInstrBytes : Nat := 3

end Sys2Proof
end

