-- ==== Sys2Proof/Machine/State.lean ====
section
/-! DEFINITION. The architectural state (spec `10_state.md` R20 to R41), the reasons for which a step gives no next
state, and the state after reset. -/

namespace Sys2Proof.Machine

/-- The run state `rs` (R35). -/
inductive RunState where
  /-- The controller performs one cycle after another. -/
  | running
  /-- HLT has executed. -/
  | halted
  /-- A fault was raised. -/
  | faulted
  deriving DecidableEq, Repr

/-- `fault.cause` (R36, R165). -/
inductive FaultCause where
  /-- Code 0: no fault has been raised. -/
  | noFault
  /-- Code 1: the byte at `pc` is not one of the 13 opcodes (R166). -/
  | illegalOpcode
  /-- Code 2: an operand byte would lie above address 255 (R167). -/
  | fetchOverrun
  /-- Code 3: a register operand byte is greater than 7 (R169). -/
  | invalidRegister
  /-- Code 4: the sequential successor is used and is greater than 255 (R168). -/
  | pcOverrun
  /-- Code 5: reserved; nothing raises it (R174, R128). -/
  | internalAluOp
  deriving DecidableEq, Repr

/-- The fault record (R36): it is the spec's own state, read by the host only. -/
structure FaultRecord where
  cause : FaultCause
  addr : Addr
  ir : Byte
  operand : Byte
  deriving DecidableEq, Repr

/-- "No fault": cause 0, other fields 0 (R41). -/
def FaultRecord.empty : FaultRecord := ⟨.noFault, 0, 0, 0⟩

/-- The three condition flags: Equal, Less, Greater, three separate bits (R32, R33). -/
structure Flags where
  e : Bool
  l : Bool
  g : Bool
  deriving DecidableEq, Repr

/-- The one memory as (address, byte) pairs. An address that is not listed reads as `Config.memFill`; the canonical
form is `Memory.wf` in `Ops.lean`. -/
abbrev Memory := List Host.Cell

/-- The whole architectural state (R20): nothing else persists from one cycle to the next (R21, R40). -/
structure State where
  /-- `x[0]`..`x[7]`, general registers; `x[7]` is the stack pointer (R22, R27). -/
  x : Vector Byte 8
  /-- The program counter (R28). -/
  pc : Addr
  /-- `E`, `L`, `G` (R32). -/
  flags : Flags
  /-- `mem[0]`..`mem[255]` (R39). -/
  mem : Memory
  /-- The run state (R35). -/
  rs : RunState
  /-- The fault record (R36). -/
  fault : FaultRecord
  /-- The output stream, oldest value first (R37). -/
  out : List Byte
  deriving DecidableEq, Repr

/-- Why a step gives NO next state. The faults of the spec (R165) are not here: raising one is a next state in run
state `faulted` (R97 (c), R171). -/
inductive Fault where
  /-- Raised by `step` alone, in run state `halted`: no cycle is performed (R98). Safe: there is no step to miss. -/
  | machineHalted
  /-- Raised by `step` alone, in run state `faulted`: no cycle is performed (R98). Safe: there is no step to miss. -/
  | machineFaulted
  deriving DecidableEq, Repr

/-- Why an instruction is refused. -/
inductive Refusal where
  /-- Raised by `exec` on an instruction that has no meaning yet; no arm does. Safe. -/
  | notModelled (mnemonic : String)
  deriving DecidableEq, Repr

/-- The machine after reset, started on the empty program image (R41, R195, R197 with `n = 0` and the default
parameters; log entries 1 to 4). -/
def State.reset : State where
  x := (Vector.replicate 8 Config.gprReset).set Config.spIndex.val Config.spReset
  pc := Config.pcReset
  flags := ⟨false, false, false⟩
  mem := []
  rs := .running
  fault := FaultRecord.empty
  out := []

end Sys2Proof.Machine
end

