-- ==== Sys2Proof/Machine/Ops.lean ====
section
/-! DEFINITION. The named operations over memory, registers, stack, output and the run state, and TAKING A FAULT as one
shared operation (spec `00_scope.md` R7, `20_memory.md` R50 to R55, `43_stack.md` R135, `60_exceptions.md` R171). There is
no return from a fault (R173). -/

namespace Sys2Proof.Machine

/-! ### Memory -/

/-- The canonical form of memory: addresses strictly rising and below 256, and no cell equal to what an unlisted
address reads as. -/
abbrev Memory.wf (m : Memory) : Prop :=
  m.Pairwise (fun c d => c.1 < d.1) ∧ ∀ c ∈ m, c.1 < Config.memSize ∧ c.2 ≠ Config.memFill

/-- The byte stored for a key, or the fill. -/
def lookupCell (k : Nat) : Memory → Byte
  | [] => Config.memFill
  | c :: m => if c.1 = k then c.2 else lookupCell k m

/-- Store a byte for a key at its place in the rising order. -/
def insertCell (k : Nat) (v : Byte) : Memory → Memory
  | [] => [(k, v)]
  | c :: m =>
    if k < c.1 then (k, v) :: c :: m
    else if c.1 = k then (k, v) :: m
    else c :: insertCell k v m

/-- Remove what is stored for a key. -/
def eraseCell (k : Nat) (m : Memory) : Memory := m.filter (fun c => decide (c.1 ≠ k))

/-- `MemRead(addr, 1)` (R7, R51): every address names a cell and no read can fault. -/
def Memory.read (m : Memory) (a : Addr) : Byte := lookupCell a.toNat m

/-- `MemWrite(addr, 1, v)` (R7, R51): sets one cell and changes nothing else; writing the fill value removes the entry. -/
def Memory.write (m : Memory) (a : Addr) (v : Byte) : Memory :=
  if v = Config.memFill then eraseCell a.toNat m else insertCell a.toNat v m

/-- The bytes at `a`, `a+1`, … as far as `count` and the top of memory reach: no address above 255 is read (R55). -/
def Memory.readFrom (m : Memory) : Nat → Nat → List Byte
  | _, 0 => []
  | a, count + 1 => if a < Config.memSize then m.read (BitVec.ofNat 8 a) :: m.readFrom (a + 1) count else []

/-- Bytes stored at `a`, `a+1`, … in order; what would lie above address 255 is dropped. -/
def Memory.writeFrom (m : Memory) : Nat → List Byte → Memory
  | _, [] => m
  | a, v :: vs => if a < Config.memSize then (m.write (BitVec.ofNat 8 a) v).writeFrom (a + 1) vs else m

/-- Memory with every cell at one value (R195 `MEM_FILL`). -/
def Memory.filled (fill : Byte) : Memory :=
  if fill = Config.memFill then [] else (List.range Config.memSize).map (fun k => (k, fill))

/-- Read one byte of the state's memory. -/
def State.readMem (s : State) (a : Addr) : Byte := s.mem.read a

/-- Write one byte of the state's memory. -/
def State.writeMem (s : State) (a : Addr) (v : Byte) : State := { s with mem := s.mem.write a v }

/-! ### Registers, program counter, flags, output, run state -/

/-- Read a general register: none is hardwired (R24). -/
def State.reg (s : State) (r : RegNum) : Byte := s.x[r.val]

/-- Write a general register (R23, R24). -/
def State.setReg (s : State) (r : RegNum) (v : Byte) : State := { s with x := s.x.set r.val v }

/-- Write the program counter. -/
def State.setPc (s : State) (a : Addr) : State := { s with pc := a }

/-- Write all three flags at once (R125). -/
def State.setFlags (s : State) (f : Flags) : State := { s with flags := f }

/-- `Output(v)`: append to the output stream (R7, R37). -/
def State.emit (s : State) (v : Byte) : State := { s with out := s.out ++ [v] }

/-- Enter the terminal state of HLT (R99); `pc` keeps its value (D6). -/
def State.halt (s : State) : State := { s with rs := .halted }

/-! ### The stack -/

/-- The stack pointer, `x[7]` (R27). -/
def State.sp (s : State) : Addr := s.reg Config.spIndex

/-- The first half of a push: `x[7] <- (x[7] - 1) mod 256` (R135). -/
def State.decSp (s : State) : State := s.setReg Config.spIndex (s.sp - 1)

/-- The second half of a pop: `x[7] <- (x[7] + 1) mod 256` (R135). -/
def State.incSp (s : State) : State := s.setReg Config.spIndex (s.sp + 1)

/-- The second half of a push: write a byte at the stack pointer (R135). -/
def State.storeTop (s : State) (v : Byte) : State := s.writeMem s.sp v

/-- The first half of a pop: the byte at the stack pointer (R135). -/
def State.loadTop (s : State) : Byte := s.readMem s.sp

/-! ### Taking a fault -/

/-- `raise` (R7, R171): the run state becomes `faulted` and the record is written with the cause, the address of the
instruction, its opcode byte `mem[p]` and the offending operand byte (0 where there is none, R165); `pc` keeps `p` and
nothing else changes. -/
def State.raise (s : State) (cause : FaultCause) (operand : Byte) : State :=
  { s with rs := .faulted, fault := ⟨cause, s.pc, s.readMem s.pc, operand⟩ }

/-- The numeric code of a cause (R165, D12). -/
def FaultCause.code : FaultCause → Nat
  | .noFault => 0
  | .illegalOpcode => 1
  | .fetchOverrun => 2
  | .invalidRegister => 3
  | .pcOverrun => 4
  | .internalAluOp => 5

end Sys2Proof.Machine
end

