-- ==== Sys2Proof/Machine/Flags.lean ====
section
/-! DEFINITION. The flag computation of the machine: CMP's, the only one (spec `42_alu.md` R124, R125; `10_state.md` R32).
ADD and MUL touch no flag (R127). -/

namespace Sys2Proof.Machine

/-- The trio that CMP writes: `E = (va = vb)`, `L = (va < vb)`, `G = (va > vb)` on the raw unsigned values (R124; the
direction of `L` and `G` is the spec's decision D10, log entry 13). -/
def compareFlags (va vb : Byte) : Flags where
  e := decide (va.toNat = vb.toNat)
  l := decide (va.toNat < vb.toNat)
  g := decide (va.toNat > vb.toNat)

end Sys2Proof.Machine
end

