-- ==== Sys2Proof/Machine/Operands.lean ====
section
/-! DEFINITION. The checks every instruction makes before its first effect, in the order of spec `40_cycle_and_halt.md`
R93 (`60_exceptions.md` R170), and the operand forms (`30_encoding.md` R74, R75). Check 1, the legal opcode, is the
decoder's (`Machine/Cycle.lean`). Each check either raises its fault, with no other effect, or goes on to what follows. -/

namespace Sys2Proof.Machine

/-- Check 2: all `n` operand bytes lie at addresses at most 255, else `FetchOverrun` (R93, R167). The cycle's fetch has
already made this check for an instruction it hands over; it stands here so that every meaning makes all of its own
rule's checks (log entry 7). -/
def checkFetch (n : Nat) (s : State) (onward : State) : State :=
  if s.pc.toNat + n > 255 then s.raise .fetchOverrun 0 else onward

/-- Check 3 for one register operand byte: it is at most 7 and is then the register's number, unmasked and unscaled
(R74); else `InvalidRegister`, recording the byte (R169). -/
def withRegister (r : Byte) (s : State) (onward : RegNum → State) : State :=
  if h : r.toNat < 8 then onward ⟨r.toNat, h⟩ else s.raise .invalidRegister r

/-- Check 4: the sequential successor `p + len` is an address, else `PcOverrun`; `pc` does not wrap (R31, R93, R168). -/
def withSuccessor (len : Nat) (s : State) (onward : Addr → State) : State :=
  if s.pc.toNat + len > 255 then s.raise .pcOverrun 0 else onward (BitVec.ofNat 8 (s.pc.toNat + len))

end Sys2Proof.Machine
end

