-- ==== Sys2Proof/Machine/Alu.lean ====
section
/-! DEFINITION. The ALU as a component and its three instructions MUL, ADD and CMP (spec `42_alu.md` R120 to R128). -/

namespace Sys2Proof.Machine

/-- The ALU's operation selector: exactly three values, so an operation outside them cannot be requested (R120, R128). -/
inductive AluOp where
  | mul
  | add
  | cmp
  deriving DecidableEq, Repr

/-- What the ALU hands back: a result for register `a`, or the flag trio (R120). -/
inductive AluOut where
  | value (v : Byte)
  | trio (f : Flags)
  deriving DecidableEq, Repr

/-- The ALU: a pure function of the selector and the two operand values; sums and products are exact and then taken
modulo 256, with nothing recorded of the bits above (R120, R121, R126). -/
def alu (op : AluOp) (va vb : Byte) : AluOut :=
  match op with
  | .mul => .value (BitVec.ofNat 8 (va.toNat * vb.toNat))
  | .add => .value (BitVec.ofNat 8 (va.toNat + vb.toNat))
  | .cmp => .trio (compareFlags va vb)

/-- Where the ALU's answer goes: to register `a`, or to the flags (R120). -/
def State.writeAlu (s : State) (ra : RegNum) (o : AluOut) : State :=
  match o with
  | .value v => s.setReg ra v
  | .trio f => s.setFlags f

/-- The shared course of an ALU instruction: checks, both operands read, one write, one advance of `pc` made outside the
ALU (R95, R120). -/
def aluInstruction (op : AluOp) (a b : Byte) (s : State) : State :=
  checkFetch 2 s <| withRegister a s fun ra => withRegister b s fun rb => withSuccessor 3 s fun next =>
    (s.writeAlu ra (alu op (s.reg ra) (s.reg rb))).setPc next

/-- MUL (R122). -/
def execMul (a b : Byte) (s : State) : Host.Outcome State Fault Refusal := .next (aluInstruction .mul a b s)

/-- ADD (R123). -/
def execAdd (a b : Byte) (s : State) : Host.Outcome State Fault Refusal := .next (aluInstruction .add a b s)

/-- CMP (R124). -/
def execCmp (a b : Byte) (s : State) : Host.Outcome State Fault Refusal := .next (aluInstruction .cmp a b s)

end Sys2Proof.Machine
end

