-- ==== Sys2Proof/Machine/Control.lean ====
section
/-! DEFINITION. Control transfer: CALL, RET, JEQ, JNE, JMP (spec `44_control_flow.md` R145 to R150). -/

namespace Sys2Proof.Machine

/-- CALL (R146): push the address of the instruction after it, which must be an address (check 4), then read the target
register, so `CALL r7` jumps to the decremented stack pointer (D11, log entry 12). -/
def execCall (a : Byte) (s : State) : Host.Outcome State Fault Refusal :=
  .next <| checkFetch 1 s <| withRegister a s fun ra => withSuccessor 2 s fun next =>
    (s.decSp.storeTop next).setPc ((s.decSp.storeTop next).reg ra)

/-- RET (R147): pop into `pc`; no operand and no use of the successor, so it faults nowhere. -/
def execRet (s : State) : Host.Outcome State Fault Refusal :=
  .next (s.incSp.setPc s.loadTop)

/-- The shared course of a conditional jump: the register is checked whether or not the jump is taken; only a jump that
is not taken uses the successor (R93, R148, R149). -/
def conditionalJump (taken : Bool) (a : Byte) (s : State) : State :=
  checkFetch 1 s <| withRegister a s fun ra =>
    if taken then s.setPc (s.reg ra) else withSuccessor 2 s fun next => s.setPc next

/-- JEQ (R148): taken when `E = 1`. -/
def execJeq (a : Byte) (s : State) : Host.Outcome State Fault Refusal := .next (conditionalJump s.flags.e a s)

/-- JNE (R149): taken when `E = 0`. -/
def execJne (a : Byte) (s : State) : Host.Outcome State Fault Refusal := .next (conditionalJump (!s.flags.e) a s)

/-- JMP (R150): never uses the successor. -/
def execJmp (a : Byte) (s : State) : Host.Outcome State Fault Refusal :=
  .next <| checkFetch 1 s <| withRegister a s fun ra => s.setPc (s.reg ra)

end Sys2Proof.Machine
end

