-- ==== Sys2Proof/Machine/DataMove.lean ====
section
/-! DEFINITION. Data movement and output: LDI and PRN (spec `41_data_movement.md` R110, R111). -/

namespace Sys2Proof.Machine

/-- LDI (R110): the immediate is used as it is and never checked as a register (R75). -/
def execLdi (a imm : Byte) (s : State) : Host.Outcome State Fault Refusal :=
  .next <| checkFetch 2 s <| withRegister a s fun ra => withSuccessor 3 s fun next =>
    (s.setReg ra imm).setPc next

/-- PRN (R111): the 8-bit value is appended to the output stream; the port never stalls (D14). -/
def execPrn (a : Byte) (s : State) : Host.Outcome State Fault Refusal :=
  .next <| checkFetch 1 s <| withRegister a s fun ra => withSuccessor 2 s fun next =>
    (s.emit (s.reg ra)).setPc next

end Sys2Proof.Machine
end

