-- ==== Sys2Proof/Machine/Halt.lean ====
section
/-! DEFINITION. HLT (spec `40_cycle_and_halt.md` R99). -/

namespace Sys2Proof.Machine

/-- HLT (R99): the terminal state; no operand, no successor, so it faults nowhere; `pc` keeps the address of the HLT
(D6, log entry 8). -/
def execHlt (s : State) : Host.Outcome State Fault Refusal := .next s.halt

end Sys2Proof.Machine
end

