-- ==== Sys2Proof/Machine/Stack.lean ====
section
/-! DEFINITION. The stack instructions PUSH and POP (spec `43_stack.md` R135 to R139). -/

namespace Sys2Proof.Machine

/-- PUSH (R136): decrement, then write at the new stack pointer the register AS IT IS AFTER the decrement, so
`PUSH r7` stores the decremented stack pointer (D11, log entry 12). -/
def execPush (a : Byte) (s : State) : Host.Outcome State Fault Refusal :=
  .next <| checkFetch 1 s <| withRegister a s fun ra => withSuccessor 2 s fun next =>
    (s.decSp.storeTop (s.decSp.reg ra)).setPc next

/-- POP (R137): load the register, then increment `x[7]` AS IT IS AFTER the load, so `POP r7` leaves the popped byte
plus 1 (D11, log entry 12). -/
def execPop (a : Byte) (s : State) : Host.Outcome State Fault Refusal :=
  .next <| checkFetch 1 s <| withRegister a s fun ra => withSuccessor 2 s fun next =>
    ((s.setReg ra s.loadTop).incSp).setPc next

end Sys2Proof.Machine
end

