-- ==== Sys2Proof/Machine/Cycle.lean ====
section
/-! DEFINITION. One cycle: fetch, decode, check 1, execute (spec `40_cycle_and_halt.md` R90 to R96). -/

namespace Sys2Proof.Machine

/-- The bytes a fetch can see: the opcode byte at `pc` and the bytes after it, at most three and none above address 255
(R55, R91, R92). Bytes beyond the instruction's own are not used; a read has no side effect, so looking at them cannot
be observed (D4, log entry 6). -/
def State.fetchWindow (s : State) : List Byte := s.mem.readFrom s.pc.toNat Config.maxInstrBytes

/-- The fault of a failed decode: check 1 (R166) or check 2 (R167). -/
def decodeFault (e : DecodeError) (s : State) : State :=
  match e with
  | .illegalOpcode => s.raise .illegalOpcode 0
  | .truncated => s.raise .fetchOverrun 0

/-- The cycle of a running machine (R96). Every fetch read precedes the instruction's one write (R52). -/
def cycle (s : State) : Host.Outcome State Fault Refusal :=
  match decode s.fetchWindow with
  | .ok (i, _) => exec i s
  | .error e => .next (decodeFault e s)

end Sys2Proof.Machine
end

