-- ==== Sys2Proof/Machine/Step.lean ====
section
/-! DEFINITION. The step of the machine (spec `40_cycle_and_halt.md` R96 to R98). -/

namespace Sys2Proof.Machine

/-- One step: a cycle while `rs` is `running`; in `halted` and `faulted` there is no step (R96, R98). -/
def step (s : State) : Host.Outcome State Fault Refusal :=
  match s.rs with
  | .running => cycle s
  | .halted => .fault .machineHalted
  | .faulted => .fault .machineFaulted

/-- `s` with an instruction word placed where the next cycle fetches: its three bytes at `pc`, `pc+1`, `pc+2` (those of
them that exist) and the machine running. It stands for the host's load and start (R196, R199; log entry 5). -/
def State.withFetchWord (s : State) (nbits w : Nat) : State :=
  { s with mem := s.mem.writeFrom s.pc.toNat (wordBytes nbits w), rs := .running }

end Sys2Proof.Machine
end

