-- ==== Sys2Proof/Machine/Loader.lean ====
section
/-! DEFINITION. The program text format that the loader's contract consumes (spec `30_encoding.md` R83;
`70_reset_and_hazards.md` R198, R200, R201). The loader is outside the core; this file holds what the spec says the core
may rely on: which text gives which image, and which text is a load error. -/

namespace Sys2Proof.Machine

/-- Why the machine is never started (R200, R201). -/
inductive LoadError where
  /-- The program file is missing or unreadable (R201). -/
  | unreadable
  /-- A line's content is not a base-2 integer literal (R83, R201). -/
  | malformedLine
  /-- A literal is above 255 (R200, D16). -/
  | valueTooLarge
  /-- The image is longer than 256 bytes (R200, D16). -/
  | imageTooLong
  deriving DecidableEq, Repr

/-- Drop white space at both ends. -/
def trimLine (l : List Char) : List Char :=
  ((l.dropWhile Char.isWhitespace).reverse.dropWhile Char.isWhitespace).reverse

/-- A line's content: what stands before a `#`, trimmed (R83). -/
def lineContent (l : List Char) : List Char := trimLine (l.takeWhile (fun c => decide (c ≠ '#')))

/-- The value of a base-2 literal written most significant digit first: one or more digits 0 and 1 and nothing else
(R6, R83; log entry 17). -/
def binaryValue : List Char → Option Nat
  | [] => none
  | ds => ds.foldl (fun v d => v.bind fun n => if d = '0' then some (2 * n) else if d = '1' then some (2 * n + 1) else none) (some 0)

/-- What a line gives: nothing when its content is empty, else one byte (R83). -/
def parseLine (l : List Char) : Except LoadError (Option Byte) :=
  if lineContent l = [] then .ok none
  else
    match binaryValue (lineContent l) with
    | none => .error .malformedLine
    | some v => if v ≤ 255 then .ok (some (BitVec.ofNat 8 v)) else .error .valueTooLarge

/-- The bytes of a text, in file order; the first bad line is the error (R83, R198). -/
def parseLines : List (List Char) → Except LoadError (List Byte)
  | [] => .ok []
  | l :: ls =>
    match parseLine l, parseLines ls with
    | .error e, _ => .error e
    | .ok _, .error e => .error e
    | .ok none, .ok bs => .ok bs
    | .ok (some b), .ok bs => .ok (b :: bs)

/-- The program image of a file, given as its lines; `none` is a file that cannot be read (R198, R200, R201). -/
def loadImage : Option (List (List Char)) → Except LoadError (List Byte)
  | none => .error .unreadable
  | some ls =>
    match parseLines ls with
    | .error e => .error e
    | .ok img => if img.length ≤ Config.memSize then .ok img else .error .imageTooLong

end Sys2Proof.Machine
end

