-- ==== Sys2Proof/Machine/HostPort.lean ====
section
/-! DEFINITION. What the host's events do to the state, and the ports (spec `70_reset_and_hazards.md` R195 to R206). WHEN
an event may happen is `Machine/Session.lean`: while the machine runs the host does nothing to it but reset (R204), so
none of these functions is part of `step`. -/

namespace Sys2Proof.Machine

/-- Reset with the spec's two open parameters as arguments; it keeps nothing of the state before it (R195, R21). The run
state has no value of its own for the time between reset and start (R35, log entry 4). -/
def State.resetWith (spReset memFill : Byte) : State :=
  { State.reset with
    x := (Vector.replicate 8 Config.gprReset).set Config.spIndex.val spReset
    mem := Memory.filled memFill }

/-- What the event `load(addr, byte)` does (R203); it happens only between reset and start (`Session.event`). -/
def State.load (s : State) (a : Addr) (v : Byte) : State := s.writeMem a v

/-- The loader's bytes placed from address 0 in order (R199). -/
def State.placeImage (s : State) (img : List Byte) : State := { s with mem := s.mem.writeFrom Config.loadBase img }

/-- What the event `start` does (R196, R203); it happens once after a reset (`Session.event`), so it never takes a stopped
machine back to running. -/
def State.start (s : State) : State := { s with rs := .running }

/-- Reset, load, start: the launch state of an image, or a load error and no launch state (R196, R197, R200). -/
def State.launch (spReset memFill : Byte) (img : List Byte) : Except LoadError State :=
  if img.length ≤ Config.memSize then .ok ((State.resetWith spReset memFill).placeImage img).start
  else .error .imageTooLong

/-- The launch state of a program file (R198, R201). -/
def State.launchFile (spReset memFill : Byte) (file : Option (List (List Char))) : Except LoadError State :=
  match loadImage file with
  | .error e => .error e
  | .ok img => State.launch spReset memFill img

/-- The port `halted` (R203). -/
def State.haltedPort (s : State) : Bool := decide (s.rs = .halted)

/-- The port `faulted` (R203). -/
def State.faultedPort (s : State) : Bool := decide (s.rs = .faulted)

/-- The ports `fault_cause`, `fault_addr`, `fault_ir`, `fault_operand`: valid while `faulted` (R203). -/
def State.faultPort (s : State) : Option (Nat × Addr × Byte × Byte) :=
  if s.rs = .faulted then some (s.fault.cause.code, s.fault.addr, s.fault.ir, s.fault.operand) else none

/-- The ports `out_valid` and `out_data` of the cycle from `s` to `t`: the value the cycle emitted, if it emitted one
(R203). -/
def outPort (s t : State) : Option Byte := (t.out.drop s.out.length).head?

/-- The numeral of one printed value: unsigned decimal, no leading zeros, no sign (R205, D14). -/
def decimalNumeral (v : Byte) : List Char := Nat.toDigits 10 v.toNat

/-- The lines the host has shown, one for each PRN in order; the line terminator is left to the host (R205, U19). -/
def State.console (s : State) : List (List Char) := s.out.map decimalNumeral

end Sys2Proof.Machine
end

