-- ==== Sys2Proof/Machine/Assembly.lean ====
section
/-! DEFINITION. The assembly notation in which the spec writes programs (spec `00_scope.md` R8; `30_encoding.md` R82). It
stands outside the machine, and no step uses it; this file says which bytes a listing in that notation stands for. What
the notation leaves open is log entry 24. -/

namespace Sys2Proof.Machine

/-! ### Writing -/

/-- `r0`..`r7` (R82). -/
def registerName (r : Byte) : List Char := 'r' :: decimalNumeral r

/-- A mnemonic and its operands, separated by spaces, in the order of the operand bytes in memory. -/
def assemblyLine (mnemonic : String) (operands : List (List Char)) : List Char :=
  mnemonic.toList ++ operands.flatMap (fun o => ' ' :: o)

/-- An instruction in the notation, as the syntax table of R82 has it, the immediate in decimal. -/
def assembly : Instr → List Char
  | .hlt => assemblyLine "HLT" []
  | .ldi a imm => assemblyLine "LDI" [registerName a, decimalNumeral imm]
  | .prn a => assemblyLine "PRN" [registerName a]
  | .mul a b => assemblyLine "MUL" [registerName a, registerName b]
  | .add a b => assemblyLine "ADD" [registerName a, registerName b]
  | .cmp a b => assemblyLine "CMP" [registerName a, registerName b]
  | .push a => assemblyLine "PUSH" [registerName a]
  | .pop a => assemblyLine "POP" [registerName a]
  | .call a => assemblyLine "CALL" [registerName a]
  | .ret => assemblyLine "RET" []
  | .jeq a => assemblyLine "JEQ" [registerName a]
  | .jne a => assemblyLine "JNE" [registerName a]
  | .jmp a => assemblyLine "JMP" [registerName a]

/-! ### Reading -/

/-- The value of a digit, up to base 16. -/
def digitValue (c : Char) : Option Nat :=
  if '0'.toNat ≤ c.toNat ∧ c.toNat ≤ '9'.toNat then some (c.toNat - '0'.toNat)
  else if 'a'.toNat ≤ c.toNat ∧ c.toNat ≤ 'f'.toNat then some (c.toNat - 'a'.toNat + 10)
  else if 'A'.toNat ≤ c.toNat ∧ c.toNat ≤ 'F'.toNat then some (c.toNat - 'A'.toNat + 10)
  else none

/-- The value of a numeral of one or more digits. -/
def numeralValue (base : Nat) (ds : List Char) : Option Nat :=
  if ds = [] then none
  else ds.foldl (fun v d => v.bind fun n => (digitValue d).bind fun k => if k < base then some (base * n + k) else none) (some 0)

/-- An immediate written as a number: `0x` hexadecimal, `0b` binary, else decimal (R8, R82). -/
def immediateNumber : List Char → Option Nat
  | '0' :: 'x' :: ds => numeralValue 16 ds
  | '0' :: 'b' :: ds => numeralValue 2 ds
  | ds => numeralValue 10 ds

/-- The names of a listing, each with the address it stands for. -/
abbrev Labels := List (List Char × Nat)

/-- LDI's immediate: a number, or a name that stands for an address; at most 255. -/
def readImmediate (labels : Labels) (t : List Char) : Option Byte :=
  ((immediateNumber t).or (labels.lookup t)).bind fun v => if v ≤ 255 then some (BitVec.ofNat 8 v) else none

/-- A register operand. -/
def readRegister : List Char → Option Byte
  | ['r', d] => (digitValue d).bind fun k => if k ≤ 7 then some (BitVec.ofNat 8 k) else none
  | _ => none

/-- The words of a line between white space, without a comment that starts at `;`. -/
def words (l : List Char) : List (List Char) :=
  ((l.takeWhile (fun c => decide (c ≠ ';'))).foldr
    (fun c ws => if c.isWhitespace then [] :: ws else (c :: ws.headD []) :: ws.tail) [[]]).filter (fun w => decide (w ≠ []))

/-- The labels `name:` at the head of a line, and the words after them. -/
def splitLabels : List (List Char) → List (List Char) × List (List Char)
  | [] => ([], [])
  | t :: ts => if t.getLast? = some ':' then (t.dropLast :: (splitLabels ts).1, (splitLabels ts).2) else ([], t :: ts)

/-- The row of a mnemonic in upper case. -/
def lookupMnemonic (m : List Char) : Option OpcodeRow := opcodeTable.find? (fun row => decide (row.mnemonic.toList = m))

/-- One instruction from its words: every operand is a register but operand 2 of LDI (R96). -/
def readInstr (labels : Labels) : List (List Char) → Option Instr
  | [] => none
  | m :: operands =>
    (lookupMnemonic m).bind fun row =>
      match row.operands, operands with
      | 0, [] => some (row.build 0 0)
      | 1, [a] => (readRegister a).bind fun ra => some (row.build ra 0)
      | 2, [a, b] => (readRegister a).bind fun ra =>
          (if row.mnemonic = "LDI" then readImmediate labels b else readRegister b).bind fun rb => some (row.build ra rb)
      | _, _ => none

/-- The bytes a line of words takes: none, or the length of its instruction. -/
def lineSize : List (List Char) → Nat
  | [] => 0
  | m :: _ => match lookupMnemonic m with
    | some row => 1 + row.operands
    | none => 0

/-- The labels of a listing whose first byte is at `a`: each stands for the address of the next byte. -/
def labelsFrom (a : Nat) : List (List Char) → Labels
  | [] => []
  | l :: ls => (splitLabels (words l)).1.map (fun n => (n, a)) ++ labelsFrom (a + lineSize (splitLabels (words l)).2) ls

/-- The bytes of the lines of a listing. -/
def assembleLines (labels : Labels) : List (List Char) → Option (List Byte)
  | [] => some []
  | l :: ls =>
    (if (splitLabels (words l)).2 = [] then some [] else (readInstr labels (splitLabels (words l)).2).map encode).bind fun bs =>
      (assembleLines labels ls).map (fun cs => bs ++ cs)

/-- The program image of a listing, its first byte at address 0. -/
def assemble (ls : List (List Char)) : Option (List Byte) := assembleLines (labelsFrom Config.loadBase ls) ls

end Sys2Proof.Machine
end

