-- ==== Sys2Proof/Machine/Session.lean ====
section
/-! DEFINITION. WHEN the host's events may happen (spec `70_reset_and_hazards.md` R196, R203, R204): reset at any time, a
load only between reset and start, start once after a reset, a cycle only after start, and a running core left alone.
How far the host has got is no state of the core (R20), so it stands beside it, in a session (log entry 16). -/

namespace Sys2Proof.Machine

/-- How far the host has got since the last reset (R196). -/
inductive HostPhase where
  /-- After reset and before start: the image is being placed and no cycle is performed. -/
  | loading
  /-- After start: cycles are performed, and the host's only event is reset. -/
  | started
  deriving DecidableEq, Repr

/-- The core with its host's phase. -/
structure Session where
  phase : HostPhase
  core : State
  deriving DecidableEq, Repr

/-- The events of R203. Reset carries nothing; the two parameters of reset belong to the machine (R5, R21). -/
inductive HostEvent where
  | reset
  | load (a : Addr) (v : Byte)
  | start
  deriving DecidableEq, Repr

/-- What happens next to a session: an event of the host, or a cycle of the core. -/
inductive Move where
  | host (e : HostEvent)
  | cycle
  deriving DecidableEq, Repr

/-- An event of the host where R203 lets it happen; `none` where it may not (R203 "when", R204). -/
def Session.event (spReset memFill : Byte) (e : HostEvent) (h : Session) : Option Session :=
  match e, h.phase with
  | .reset, _ => some ⟨.loading, State.resetWith spReset memFill⟩
  | .load a v, .loading => some { h with core := h.core.load a v }
  | .load _ _, .started => none
  | .start, .loading => some ⟨.started, h.core.start⟩
  | .start, .started => none

/-- A cycle of the core: none before start (R196), and none once the core has stopped (R98). -/
def Session.advance (h : Session) : Option Session :=
  match h.phase, step h.core with
  | .started, .next t => some { h with core := t }
  | _, _ => none

/-- One move, where it may happen. -/
def Session.move (spReset memFill : Byte) : Move → Session → Option Session
  | .host e, h => h.event spReset memFill e
  | .cycle, h => h.advance

/-- One move after another, as long as each may happen. -/
def Session.moves (spReset memFill : Byte) : List Move → Session → Option Session
  | [], h => some h
  | m :: ms, h => (h.move spReset memFill m).bind (Session.moves spReset memFill ms)

/-- The loader's bytes as load events, the first at address `a` (R199). -/
def imageEvents : Nat → List Byte → List HostEvent
  | _, [] => []
  | a, v :: vs => .load (BitVec.ofNat 8 a) v :: imageEvents (a + 1) vs

/-- What the host reads of the whole state: nothing until the machine has stopped (R203). -/
def Session.endState (h : Session) : Option State :=
  if h.phase = .started ∧ h.core.rs ≠ .running then some h.core else none

end Sys2Proof.Machine
end

