-- ==== Sys2Proof/Safety.lean ====
section
/-! DEFINITION. What counts as a good state and a good end of a run (spec `70_reset_and_hazards.md` R206;
`60_exceptions.md` R172), and the invariant that every step keeps. -/

namespace Sys2Proof.Machine

/-- A completed run: HLT has executed (R206 (a)). -/
def State.completed (s : State) : Prop := s.rs = .halted

/-- A run gone wrong: a fault was raised (R172, R206 (b)). -/
def State.goneWrong (s : State) : Prop := s.rs = .faulted

/-- A run from `s` ends in `t`: some number of steps leads to `t` and `t` has stopped (R97, R206). -/
def State.endsIn (s t : State) : Prop := ∃ k, Host.Core.run Sys2Proof.core k s = .next t ∧ t.rs ≠ .running

/-- A run from `s` has no end (R206 (c), R212): every number of steps answers a state. -/
def State.runsForever (s : State) : Prop := ∀ k, ∃ t, Host.Core.run Sys2Proof.core k s = .next t

/-- The legal values of the flags: at most one is set. 000 stands until the first CMP, then exactly one is 1 (spec
`90_conflicts.md` C6; R32, R125). -/
def Flags.legal (f : Flags) : Prop :=
  f = ⟨false, false, false⟩ ∨ f = ⟨true, false, false⟩ ∨ f = ⟨false, true, false⟩ ∨ f = ⟨false, false, true⟩

/-- What a record may say about the instruction at `pc` that raised it (R165): cause 1 with an illegal opcode byte, or
causes 2 to 4 with a legal one, and the operand field non-zero only for cause 3, where it is above 7. -/
def FaultRecord.explains (f : FaultRecord) (s : State) : Prop :=
  f.addr = s.pc ∧ f.ir = s.readMem s.pc ∧
  ((f.cause = .illegalOpcode ∧ lookupOpcode f.ir = none ∧ f.operand = 0) ∨
   (f.cause = .fetchOverrun ∧ (lookupOpcode f.ir).isSome ∧ f.operand = 0) ∨
   (f.cause = .invalidRegister ∧ (lookupOpcode f.ir).isSome ∧ 7 < f.operand.toNat) ∨
   (f.cause = .pcOverrun ∧ (lookupOpcode f.ir).isSome ∧ f.operand = 0))

/-- The invariant of the machine: memory in canonical form, flags legal, and a fault record that is empty unless the
machine is `faulted`, when it explains the fault. -/
structure State.Inv (s : State) : Prop where
  memory : s.mem.wf
  flags : s.flags.legal
  noRecord : s.rs ≠ .faulted → s.fault = FaultRecord.empty
  record : s.rs = .faulted → s.fault.explains s

/-- The invariant of a session: that of its core, and a core that is still being loaded has not stopped. -/
structure Session.Inv (h : Session) : Prop where
  core : h.core.Inv
  loading : h.phase = .loading → h.core.rs = .running

end Sys2Proof.Machine
end

