-- ==== Sys2Proof/Certificates/Slice0/Obligations.lean ====
section
/-! DEFINITION. The statements for the provers, with the words they are written in: what a raised fault leaves
(`Expect.faulted`), the checks an instruction rule lists (`Expect.checks`), and the spec's own step pseudocode R96 over
plain functions (`Ref.step`). Where a clause is the spec's own decision D<n> (`92_eei_decisions.md`) and not the source's
statement, the docstring names it. -/

open Sys2Proof Sys2Proof.Machine

/-! ### Words the statements share -/

/-- The state a raised fault leaves: `s` with run state `faulted` and the record (R171). -/
def Sys2Proof.Expect.faulted (s : State) (cause : FaultCause) (operand : Byte) : State :=
  { s with rs := .faulted, fault := ⟨cause, s.pc, s.readMem s.pc, operand⟩ }

/-- The faults of an instruction with `n` operand bytes, register operand bytes `regs` in the order in which they are
checked, that uses its successor or not: `FetchOverrun`, else `InvalidRegister` for the first byte above 7, else
`PcOverrun`. -/
def Sys2Proof.Expect.checks (i : Instr) (n : Nat) (regs : List Byte) (usesNext : Bool) (s : State) : Prop :=
  (255 < s.pc.toNat + n → exec i s = .next (Expect.faulted s .fetchOverrun 0)) ∧
  (∀ r, s.pc.toNat + n ≤ 255 → regs.find? (fun q => decide (7 < q.toNat)) = some r →
    exec i s = .next (Expect.faulted s .invalidRegister r)) ∧
  (s.pc.toNat + n ≤ 255 → (∀ r ∈ regs, r.toNat ≤ 7) → usesNext = true → 255 < s.pc.toNat + n + 1 →
    exec i s = .next (Expect.faulted s .pcOverrun 0))

/-- The bytes of `i` stand at `pc` and after it, all of them inside memory. -/
def Sys2Proof.Expect.bytesAtPc (i : Instr) (s : State) : Prop :=
  ∀ k b, (encode i)[k]? = some b → s.pc.toNat + k ≤ 255 ∧ s.readMem (BitVec.ofNat 8 (s.pc.toNat + k)) = b

/-- Run state and fault record are unchanged, or a fault was raised and nothing else happened. -/
def Sys2Proof.Expect.systemFrame (s t : State) : Prop :=
  (t.rs = s.rs ∧ t.fault = s.fault) ∨ ∃ c o, t = Expect.faulted s c o

/-- Every register outside `ds` reads as before. -/
def Sys2Proof.Expect.keepsRegisters (s t : State) (ds : List Nat) : Prop := ∀ r : RegNum, r.val ∉ ds → t.reg r = s.reg r

/-- Every byte of memory reads as before. -/
def Sys2Proof.Expect.keepsMemory (s t : State) : Prop := ∀ a, t.readMem a = s.readMem a

/-- The instructions of a list, one after another, as far as each answers a next state. -/
def Sys2Proof.Expect.execAll : List Instr → State → Option State
  | [], s => some s
  | i :: is, s => match exec i s with
    | .next t => Expect.execAll is t
    | _ => none

/-- The instruction can fall through or records its successor, in a state with this Equal flag (R93 check 4). -/
def Sys2Proof.Expect.usesSuccessor (equal : Bool) : Instr → Bool
  | .hlt | .ret | .jmp _ => false
  | .jeq _ => !equal
  | .jne _ => equal
  | .ldi _ _ | .prn _ | .mul _ _ | .add _ _ | .cmp _ _ | .push _ | .pop _ | .call _ => true

/-! ### Encoding -/

/-- The words of the opcode table (`30_encoding.md` R76, R82): each row's bytes, with any operand bytes, decode to the
row's instruction, and only the 13 patterns decode to anything. -/
def Obligations.OpcodeTableWords : Prop :=
  (∀ a b : Byte,
    decode [0b00000001] = .ok (.hlt, []) ∧ decode [0b10000010, a, b] = .ok (.ldi a b, []) ∧
    decode [0b01000111, a] = .ok (.prn a, []) ∧ decode [0b10100010, a, b] = .ok (.mul a b, []) ∧
    decode [0b10100000, a, b] = .ok (.add a b, []) ∧ decode [0b10100111, a, b] = .ok (.cmp a b, []) ∧
    decode [0b01000101, a] = .ok (.push a, []) ∧ decode [0b01000110, a] = .ok (.pop a, []) ∧
    decode [0b01010000, a] = .ok (.call a, []) ∧ decode [0b00010001] = .ok (.ret, []) ∧
    decode [0b01010101, a] = .ok (.jeq a, []) ∧ decode [0b01010110, a] = .ok (.jne a, []) ∧
    decode [0b01010100, a] = .ok (.jmp a, [])) ∧
  (∀ ir bs i rest, decode (ir :: bs) = .ok (i, rest) →
    ir ∈ ([0x01, 0x82, 0x47, 0xA2, 0xA0, 0xA7, 0x45, 0x46, 0x50, 0x11, 0x55, 0x56, 0x54] : List Byte))

/-- Decoding and encoding are exact inverses: bytes decode to `i` with `rest` left over exactly when they are the bytes
of `i` followed by `rest` (`30_encoding.md` sections 1 to 3). It covers every instruction at every operand value. -/
def Obligations.DecodeInvertsEncodeExactly : Prop :=
  ∀ (bs rest : List Byte) (i : Instr), decode bs = .ok (i, rest) ↔ bs = encode i ++ rest

/-- R77: every opcode byte selects exactly one row of the table or is illegal whatever follows it, and the operand bytes
never choose the instruction. -/
def Obligations.DecodingIsTotalAndUnambiguous : Prop :=
  (∀ ir : Byte, (∃! row, row ∈ opcodeTable ∧ row.opcode = ir) ∨ ∀ bs, decode (ir :: bs) = .error .illegalOpcode) ∧
  (∀ (ir : Byte) (bs : List Byte), decode (ir :: bs) = .error .illegalOpcode → ∀ row ∈ opcodeTable, row.opcode ≠ ir) ∧
  (∀ (ir : Byte) (bs cs rest rest' : List Byte) (i j : Instr),
    decode (ir :: bs) = .ok (i, rest) → decode (ir :: cs) = .ok (j, rest') →
    ∃ row ∈ opcodeTable, row.opcode = ir ∧ (∃ a b, i = row.build a b) ∧ ∃ a b, j = row.build a b)

/-- R72: the opcode byte alone decides the length, 1 plus the operand count of its row. -/
def Obligations.LengthIsDecidedByOpcodeAlone : Prop :=
  ∀ (ir : Byte) (row : OpcodeRow), row ∈ opcodeTable → row.opcode = ir →
    (∀ (bs rest : List Byte) (i : Instr), decode (ir :: bs) = .ok (i, rest) →
      (encode i).length = 1 + row.operands ∧ (ir :: bs).length = (encode i).length + rest.length) ∧
    (∀ bs : List Byte, row.operands ≤ bs.length → ∃ i rest, decode (ir :: bs) = .ok (i, rest))

/-- The assembly notation: every list of well-formed instructions, written a line each, assembles to their bytes, and a
name stands for the address of the byte after it (`30_encoding.md` section 5; the notation is the spec's decision D22, its
open points log entry 24). -/
def Obligations.AssemblyStandsForItsBytes : Prop :=
  (∀ is : List Instr, (∀ i ∈ is, i.wellFormed = true) → assemble (is.map assembly) = some (is.flatMap encode)) ∧
  (∀ (is js : List Instr) (a : Byte), (∀ i ∈ is, i.wellFormed = true) → (∀ j ∈ js, j.wellFormed = true) → a.toNat ≤ 7 →
    (is.flatMap encode).length ≤ 255 →
    assemble (is.map assembly ++ ["top:".toList, assemblyLine "LDI" [registerName a, "top".toList]] ++ js.map assembly) =
      some (is.flatMap encode ++ [0x82, a, BitVec.ofNat 8 (is.flatMap encode).length] ++ js.flatMap encode))

/-! ### The cycle -/

/-- A step of a running machine runs the instruction that the bytes at `pc` decode to, and adds nothing around it
(`40_cycle_and_halt.md` section 1): `pc` is written by the instruction itself. The window of up to three bytes that is
decoded is the model's choice (log entry 6). -/
def Obligations.StepRunsDecodedInstruction : Prop :=
  ∀ (s : State) (i : Instr) (rest : List Byte),
    s.rs = .running → decode s.fetchWindow = .ok (i, rest) → step s = exec i s

/-- When the bytes of an instruction stand in memory from `pc` on, a step runs that instruction: opcode at the lowest
address, operands above it (`20_memory.md` section 3, `40_cycle_and_halt.md` section 1). -/
def Obligations.StepRunsTheBytesAtPc : Prop :=
  ∀ (s : State) (i : Instr), s.rs = .running → Expect.bytesAtPc i s → step s = exec i s

/-- The fetch sees memory as it stands, and a byte that PUSH or CALL wrote is what the very next cycle fetches at its
address (`20_memory.md` section 8). That the fetch window shows every byte `k` below 3, whatever the opcode at `pc`, is the
model's choice (log entry 6; the spec reads only the instruction's own bytes, D4). For `PUSH r7` the byte is the
decremented stack pointer (spec decision D11, log entry 12). -/
def Obligations.StoredByteIsFetchedByNextCycle : Prop :=
  (∀ (s : State) (k : Nat), k < 3 → s.pc.toNat + k ≤ 255 →
    s.fetchWindow[k]? = some (s.readMem (BitVec.ofNat 8 (s.pc.toNat + k)))) ∧
  (∀ (s t : State) (a : Byte) (ha : a.toNat < 8) (k : Nat), k < 3 → t.pc.toNat + k = s.decSp.sp.toNat → t.rs ≠ .faulted →
    (exec (.push a) s = .next t → t.fetchWindow[k]? = some (s.decSp.reg ⟨a.toNat, ha⟩)) ∧
    (exec (.call a) s = .next t → t.fetchWindow[k]? = some (BitVec.ofNat 8 (s.pc.toNat + 2))))

/-- R97: from a running state a step answers exactly one state: running (every opcode but HLT), halted (HLT), or faulted
and then equal to the state before it in everything but run state and record. There is a step exactly from a running
state; a run is finite exactly when it reaches a halted or faulted state; and it may be infinite, in a loop of one JMP. -/
def Obligations.StepOutcomes : Prop :=
  (∀ s : State, s.rs = .running → ∃ t, step s = .next t ∧
    (t.rs = .halted ↔ s.readMem s.pc = 0x01) ∧
    (t.rs ≠ .faulted → t.fault = s.fault) ∧
    (t.rs = .faulted → t.fault.cause ≠ .noFault ∧ t = { s with rs := .faulted, fault := t.fault })) ∧
  (∀ s : State, (∃ t, step s = .next t) ↔ s.rs = .running) ∧
  (∀ s : State, (∃ k f, Host.Core.run Sys2Proof.core k s = .fault f) ↔
    ∃ k t, Host.Core.run Sys2Proof.core k s = .next t ∧ State.rs t ≠ .running) ∧
  (∀ (s : State) (a : Byte) (ha : a.toNat < 8), s.rs = .running → Expect.bytesAtPc (.jmp a) s →
    s.reg ⟨a.toNat, ha⟩ = s.pc → ∀ k, Host.Core.run Sys2Proof.core k s = .next s)

/-- R98: outside `running` there is no step; a halted and a faulted machine stop under different names. -/
def Obligations.StoppedMachineTakesNoStep : Prop :=
  (∀ s : State, s.rs = .halted → step s = .fault .machineHalted) ∧
  (∀ s : State, s.rs = .faulted → step s = .fault .machineFaulted)

/-- `pc` after an instruction: unchanged by HLT (spec decision D6) and by a faulting one, `p + len` after the instructions
that do not set it, the exact target after those that do, which for `CALL r7` is the decremented stack pointer (spec
decision D11; `40_cycle_and_halt.md` section 1, `10_state.md` section 3). -/
def Obligations.PcIsWrittenOnce : Prop :=
  ∀ (i : Instr) (s t : State), s.rs = .running → exec i s = .next t →
    (t.rs = .faulted → t.pc = s.pc) ∧
    (t.rs ≠ .faulted →
      (i = .hlt → t.pc = s.pc) ∧
      (Expect.usesSuccessor s.flags.e i = true → (∀ a, i ≠ .call a) → t.pc.toNat = s.pc.toNat + (encode i).length) ∧
      (∀ a (ha : a.toNat < 8), i = .call a → t.pc = s.decSp.reg ⟨a.toNat, ha⟩) ∧
      (i = .ret → t.pc = s.readMem (s.reg 7)) ∧
      (∀ a (ha : a.toNat < 8), i = .jmp a ∨ (i = .jeq a ∧ s.flags.e = true) ∨ (i = .jne a ∧ s.flags.e = false) →
        t.pc = s.reg ⟨a.toNat, ha⟩))

/-! ### Faults -/

/-- R166: a byte at `pc` outside the 13 patterns, one of 243, raises `IllegalOpcode`, which records address and opcode;
it is not skipped and the machine does not run on. -/
def Obligations.IllegalOpcodeIsFatal : Prop :=
  (∀ s : State, s.rs = .running →
    s.readMem s.pc ∉ ([0x01, 0x82, 0x47, 0xA2, 0xA0, 0xA7, 0x45, 0x46, 0x50, 0x11, 0x55, 0x56, 0x54] : List Byte) →
    step s = .next { s with rs := .faulted, fault := ⟨.illegalOpcode, s.pc, s.readMem s.pc, 0⟩ }) ∧
  ((List.range 256).filter (fun n => decide (lookupOpcode (BitVec.ofNat 8 n) = none))).length = 243

/-- An operand byte that would lie above address 255 raises `FetchOverrun` whatever the rest of memory holds (spec
decisions D3, D13; `60_exceptions.md` sections 1 and 2). -/
def Obligations.FetchOverrunIsRaised : Prop :=
  ∀ (s : State) (row : OpcodeRow), s.rs = .running → row ∈ opcodeTable → row.opcode = s.readMem s.pc →
    255 < s.pc.toNat + row.operands → step s = .next (Expect.faulted s .fetchOverrun 0)

/-- With the whole instruction inside memory, the first register byte above 7 raises `InvalidRegister`, also where the
successor would be 256; with all register bytes legal, an instruction ending at address 255 that uses its successor
raises `PcOverrun` (spec decisions D2, D5, D13; `60_exceptions.md` sections 1 and 2). -/
def Obligations.InvalidRegisterBeforePcOverrun : Prop :=
  ∀ (s : State) (i : Instr), s.rs = .running → Expect.bytesAtPc i s →
    (∀ r, i.registerOperands.find? (fun q => decide (7 < q.toNat)) = some r →
      step s = .next (Expect.faulted s .invalidRegister r)) ∧
    (i.wellFormed = true → Expect.usesSuccessor s.flags.e i = true → s.pc.toNat + (encode i).length = 256 →
      step s = .next (Expect.faulted s .pcOverrun 0)) ∧
    (i.wellFormed = true → (Expect.usesSuccessor s.flags.e i = false ∨ s.pc.toNat + (encode i).length ≤ 255) →
      ∃ t, step s = .next t ∧ t.rs ≠ .faulted)

/-- What a step that faults writes in the record: one of the codes 1 to 4, never the reserved code 5, with the address
and the opcode byte of the instruction, and an operand only for `InvalidRegister` (spec decisions D12, D24;
`60_exceptions.md` sections 1, 3 and 4). -/
def Obligations.FaultRecordContents : Prop :=
  ∀ s t : State, step s = .next t → t.rs = .faulted →
    t.fault.addr = s.pc ∧ t.fault.ir = s.readMem s.pc ∧ 1 ≤ t.fault.cause.code ∧ t.fault.cause.code ≤ 4 ∧
    (t.fault.cause.code = 3 → 7 < t.fault.operand.toNat) ∧ (t.fault.cause.code ≠ 3 → t.fault.operand = 0)

/-! ### Reset, load and launch -/

/-- The state after reset. Every value is the spec's own decision (D7, D8, D9, D12, D18; `10_state.md` section 7), and
that reset already stands at the start of a run is the model's choice (log entry 4). -/
def Obligations.ResetState : Prop :=
  (∀ r : RegNum, State.reset.reg r = 0x00) ∧ State.reset.pc = 0x00 ∧ State.reset.flags = ⟨false, false, false⟩ ∧
  (∀ a : Addr, State.reset.readMem a = 0x00) ∧ State.reset.rs = .running ∧
  State.reset.fault = ⟨.noFault, 0, 0, 0⟩ ∧ State.reset.out = [] ∧
  State.reset = State.resetWith 0x00 0x00

/-- R199: a program image of at most 256 bytes is placed from address 0 in order, every other cell keeps the fill value,
and with the default fill an empty image faults in its first cycle at address 0 with opcode 0. -/
def Obligations.ImageIsPlacedFromAddressZero : Prop :=
  (∀ (sp fill : Byte) (img : List Byte), img.length ≤ 256 → ∃ s, State.launch sp fill img = .ok s ∧
    (∀ a : Addr, (∀ b, img[a.toNat]? = some b → s.readMem a = b) ∧ (img.length ≤ a.toNat → s.readMem a = fill))) ∧
  (∀ (sp : Byte) (s : State), State.launch sp 0x00 [] = .ok s →
    step s = .next { s with rs := .faulted, fault := ⟨.illegalOpcode, 0x00, 0x00, 0x00⟩ })

/-- The rest of the launch state, for any stack origin and fill, and the refusal of an image that does not fit (spec
decisions D7, D8, D9, D16, D18; `70_reset_and_hazards.md` sections 1 and 2). -/
def Obligations.LaunchState : Prop :=
  (∀ (sp fill : Byte) (img : List Byte) (s : State), State.launch sp fill img = .ok s →
    s.reg 7 = sp ∧ (∀ r : RegNum, r ≠ 7 → s.reg r = 0x00) ∧ s.pc = 0x00 ∧ s.flags = ⟨false, false, false⟩ ∧
    s.rs = .running ∧ s.fault = ⟨.noFault, 0, 0, 0⟩ ∧ s.out = []) ∧
  (∀ (sp fill : Byte) (img : List Byte), 256 < img.length → State.launch sp fill img = .error .imageTooLong)

/-- R198: what a program text gives: the values of its lines that are not empty, in order; and a text gives the same with
its comment-only and blank lines stripped. -/
def Obligations.CommentAndBlankLinesDoNotCount : Prop :=
  (∀ (ls : List (List Char)) (img : List Byte), loadImage (some ls) = .ok img →
    img.map (fun b => some b.toNat) = (ls.map lineContent).filterMap (fun c => if c = [] then none else some (binaryValue c))) ∧
  (∀ ls : List (List Char), loadImage (some ls) = loadImage (some (ls.filter (fun l => decide (lineContent l ≠ [])))))

/-- R201: a program file that cannot be read, or that has a line whose content is not a base-2 literal, gives no launch
state. -/
def Obligations.LoadErrorsAbortStartup : Prop :=
  ∀ sp fill : Byte,
    (∃ e, State.launchFile sp fill none = .error e) ∧
    (∀ (ls : List (List Char)) (l : List Char), l ∈ ls → lineContent l ≠ [] → binaryValue (lineContent l) = none →
      ∃ e, State.launchFile sp fill (some ls) = .error e)

/-! ### Memory -/

/-- R51: a write sets one cell and changes nothing else of the machine; a read gives the cell's value. -/
def Obligations.WriteSetsOneCellOnly : Prop :=
  ∀ (s : State) (a b : Addr) (v : Byte),
    (s.writeMem a v).readMem a = v ∧ (b ≠ a → (s.writeMem a v).readMem b = s.readMem b) ∧
    (s.writeMem a v).x = s.x ∧ (s.writeMem a v).pc = s.pc ∧ (s.writeMem a v).flags = s.flags ∧
    (s.writeMem a v).rs = s.rs ∧ (s.writeMem a v).fault = s.fault ∧ (s.writeMem a v).out = s.out

/-- A read returns the most recent write to its cell, or the value from before all of them (`20_memory.md` section 7). -/
def Obligations.ReadReturnsMostRecentWrite : Prop :=
  ∀ (m : Memory) (ws : List (Addr × Byte)) (a : Addr),
    (ws.foldl (fun n w => n.write w.1 w.2) m).read a =
      ((ws.reverse.find? (fun w => decide (w.1 = a))).map (fun w => w.2)).getD (m.read a)

/-- Two canonical memories that read the same at every address are the same data (`20_memory.md` section 1; the canonical
form is the model's own, log entry 18). -/
def Obligations.CanonicalMemoryIsItsReads : Prop :=
  ∀ m n : Memory, m.wf → n.wf → (∀ a : Addr, m.read a = n.read a) → m = n

/-! ### The instructions: encoding, checks, and the next state of the instruction's own effect -/

/-- R110, LDI whole: encoding, effect and faults. -/
def Obligations.LdiLoadsImmediate : Prop :=
  ∀ (a imm : Byte) (s : State),
    decode [0x82, a, imm] = .ok (.ldi a imm, []) ∧ Expect.checks (.ldi a imm) 2 [a] true s ∧
    (∀ ha : a.toNat < 8, s.pc.toNat + 3 ≤ 255 →
      exec (.ldi a imm) s =
        .next { s with x := s.x.set a.toNat imm, pc := BitVec.ofNat 8 (s.pc.toNat + 3) })

/-- PRN: encoding, effect and faults (`41_data_movement.md`; that the port takes every value and never stalls is the
spec's decision D14). -/
def Obligations.PrnEmitsRegister : Prop :=
  ∀ (a : Byte) (s : State),
    decode [0x47, a] = .ok (.prn a, []) ∧ Expect.checks (.prn a) 1 [a] true s ∧
    (∀ ha : a.toNat < 8, s.pc.toNat + 2 ≤ 255 →
      exec (.prn a) s =
        .next { s with out := s.out ++ [s.reg ⟨a.toNat, ha⟩], pc := BitVec.ofNat 8 (s.pc.toNat + 2) })

/-- R122, MUL whole: encoding, effect and faults. -/
def Obligations.MulMultipliesModulo256 : Prop :=
  ∀ (a b : Byte) (s : State),
    decode [0xA2, a, b] = .ok (.mul a b, []) ∧ Expect.checks (.mul a b) 2 [a, b] true s ∧
    (∀ (ha : a.toNat < 8) (hb : b.toNat < 8), s.pc.toNat + 3 ≤ 255 → ∃ v : Byte,
      v.toNat = ((s.reg ⟨a.toNat, ha⟩).toNat * (s.reg ⟨b.toNat, hb⟩).toNat) % 256 ∧
      exec (.mul a b) s = .next { s with x := s.x.set a.toNat v, pc := BitVec.ofNat 8 (s.pc.toNat + 3) })

/-- R123, ADD whole: encoding, effect and faults. -/
def Obligations.AddAddsModulo256 : Prop :=
  ∀ (a b : Byte) (s : State),
    decode [0xA0, a, b] = .ok (.add a b, []) ∧ Expect.checks (.add a b) 2 [a, b] true s ∧
    (∀ (ha : a.toNat < 8) (hb : b.toNat < 8), s.pc.toNat + 3 ≤ 255 → ∃ v : Byte,
      v.toNat = ((s.reg ⟨a.toNat, ha⟩).toNat + (s.reg ⟨b.toNat, hb⟩).toNat) % 256 ∧
      exec (.add a b) s = .next { s with x := s.x.set a.toNat v, pc := BitVec.ofNat 8 (s.pc.toNat + 3) })

/-- CMP: encoding, effect and faults; only the flags and `pc` change (`42_alu.md` section 4; which of `L` and `G` is set
for which order is the spec's decision D10). -/
def Obligations.CmpWritesFlagsOnly : Prop :=
  ∀ (a b : Byte) (s : State),
    decode [0xA7, a, b] = .ok (.cmp a b, []) ∧ Expect.checks (.cmp a b) 2 [a, b] true s ∧
    (∀ (ha : a.toNat < 8) (hb : b.toNat < 8), s.pc.toNat + 3 ≤ 255 →
      exec (.cmp a b) s = .next { s with
        flags := ⟨decide (s.reg ⟨a.toNat, ha⟩ = s.reg ⟨b.toNat, hb⟩),
          decide ((s.reg ⟨a.toNat, ha⟩).toNat < (s.reg ⟨b.toNat, hb⟩).toNat),
          decide ((s.reg ⟨b.toNat, hb⟩).toNat < (s.reg ⟨a.toNat, ha⟩).toNat)⟩
        pc := BitVec.ofNat 8 (s.pc.toNat + 3) })

/-- PUSH: encoding, effect and faults. The stored byte is the register read after the decrement, so `PUSH r7` stores the
decremented stack pointer (spec decision D11; `43_stack.md` section 2). -/
def Obligations.PushStoresBelowStackPointer : Prop :=
  ∀ (a : Byte) (s : State),
    decode [0x45, a] = .ok (.push a, []) ∧ Expect.checks (.push a) 1 [a] true s ∧
    (∀ ha : a.toNat < 8, s.pc.toNat + 2 ≤ 255 →
      exec (.push a) s = .next { s with
        x := s.x.set 7 (s.reg 7 - 1)
        mem := s.mem.write (s.reg 7 - 1) (if a.toNat = 7 then s.reg 7 - 1 else s.reg ⟨a.toNat, ha⟩)
        pc := BitVec.ofNat 8 (s.pc.toNat + 2) })

/-- POP: encoding, effect and faults. The register is loaded before `x[7]` is incremented, so `POP r7` leaves the popped
byte plus 1 (spec decision D11; `43_stack.md` section 3). -/
def Obligations.PopLoadsFromStackPointer : Prop :=
  ∀ (a : Byte) (s : State),
    decode [0x46, a] = .ok (.pop a, []) ∧ Expect.checks (.pop a) 1 [a] true s ∧
    (∀ ha : a.toNat < 8, s.pc.toNat + 2 ≤ 255 →
      exec (.pop a) s = .next { s with
        x := if a.toNat = 7 then s.x.set 7 (s.readMem (s.reg 7) + 1)
          else (s.x.set a.toNat (s.readMem (s.reg 7))).set 7 (s.reg 7 + 1)
        pc := BitVec.ofNat 8 (s.pc.toNat + 2) })

/-- CALL: encoding, effect and faults. The return address `p + 2` is pushed, then the target register is read, so
`CALL r7` jumps to the decremented stack pointer; a CALL at 254 faults (spec decisions D2, D11; `44_control_flow.md`
section 2). -/
def Obligations.CallPushesReturnAddress : Prop :=
  ∀ (a : Byte) (s : State),
    decode [0x50, a] = .ok (.call a, []) ∧ Expect.checks (.call a) 1 [a] true s ∧
    (∀ ha : a.toNat < 8, s.pc.toNat + 2 ≤ 255 →
      exec (.call a) s = .next { s with
        x := s.x.set 7 (s.reg 7 - 1)
        mem := s.mem.write (s.reg 7 - 1) (BitVec.ofNat 8 (s.pc.toNat + 2))
        pc := if a.toNat = 7 then s.reg 7 - 1 else s.reg ⟨a.toNat, ha⟩ })

/-- R147, RET whole: encoding, effect, and no fault at any address. -/
def Obligations.RetPopsIntoPc : Prop :=
  ∀ s : State, decode [0x11] = .ok (.ret, []) ∧
    exec .ret s = .next { s with x := s.x.set 7 (s.reg 7 + 1), pc := s.readMem (s.reg 7) }

/-- R148, JEQ whole: encoding, both ways, and the faults, the register being checked whether or not it is taken. -/
def Obligations.JeqJumpsWhenEqual : Prop :=
  ∀ (a : Byte) (s : State),
    decode [0x55, a] = .ok (.jeq a, []) ∧ Expect.checks (.jeq a) 1 [a] (!s.flags.e) s ∧
    (∀ ha : a.toNat < 8, s.pc.toNat + 1 ≤ 255 → s.flags.e = true →
      exec (.jeq a) s = .next { s with pc := s.reg ⟨a.toNat, ha⟩ }) ∧
    (a.toNat < 8 → s.pc.toNat + 2 ≤ 255 → s.flags.e = false →
      exec (.jeq a) s = .next { s with pc := BitVec.ofNat 8 (s.pc.toNat + 2) })

/-- R149, JNE whole: encoding, both ways, and the faults, the register being checked whether or not it is taken. -/
def Obligations.JneJumpsWhenNotEqual : Prop :=
  ∀ (a : Byte) (s : State),
    decode [0x56, a] = .ok (.jne a, []) ∧ Expect.checks (.jne a) 1 [a] s.flags.e s ∧
    (∀ ha : a.toNat < 8, s.pc.toNat + 1 ≤ 255 → s.flags.e = false →
      exec (.jne a) s = .next { s with pc := s.reg ⟨a.toNat, ha⟩ }) ∧
    (a.toNat < 8 → s.pc.toNat + 2 ≤ 255 → s.flags.e = true →
      exec (.jne a) s = .next { s with pc := BitVec.ofNat 8 (s.pc.toNat + 2) })

/-- R150, JMP whole: encoding, effect and faults; it never raises `PcOverrun`. -/
def Obligations.JmpJumpsToRegister : Prop :=
  ∀ (a : Byte) (s : State),
    decode [0x54, a] = .ok (.jmp a, []) ∧ Expect.checks (.jmp a) 1 [a] false s ∧
    (∀ ha : a.toNat < 8, s.pc.toNat + 1 ≤ 255 →
      exec (.jmp a) s = .next { s with pc := s.reg ⟨a.toNat, ha⟩ })

/-- HLT: encoding and effect at every address; `pc` keeps the address of the HLT (spec decision D6;
`40_cycle_and_halt.md` section 2). -/
def Obligations.HltHalts : Prop :=
  ∀ s : State, decode [0x01] = .ok (.hlt, []) ∧ exec .hlt s = .next { s with rs := .halted }

/-! ### Frames -/

/-- Frame of LDI, MUL and ADD: the destination register and `pc` apart, nothing changes, or a fault is raised. -/
def Obligations.FrameOfRegisterWriters : Prop :=
  ∀ (a b : Byte) (i : Instr) (s t : State), i = .ldi a b ∨ i = .mul a b ∨ i = .add a b → exec i s = .next t →
    Expect.keepsRegisters s t [a.toNat] ∧ t.flags = s.flags ∧ Expect.keepsMemory s t ∧ t.out = s.out ∧
    Expect.systemFrame s t

/-- Frame of CMP, PRN, JEQ, JNE, JMP and HLT: no register and no byte of memory changes; the flags only by CMP, the
output only by PRN (at most one value at its end; the output as a list of values is the spec's decision D14, log entry
15), the run state only by HLT or a fault (`41_data_movement.md` PRN; `10_state.md` sections 2, 4 to 6). -/
def Obligations.FrameOfNonWriters : Prop :=
  ∀ (a b : Byte) (i : Instr) (s t : State),
    i = .cmp a b ∨ i = .prn a ∨ i = .jeq a ∨ i = .jne a ∨ i = .jmp a ∨ i = .hlt → exec i s = .next t →
    Expect.keepsRegisters s t [] ∧ Expect.keepsMemory s t ∧ (i ≠ .cmp a b → t.flags = s.flags) ∧
    (i ≠ .prn a → t.out = s.out) ∧ s.out <+: t.out ∧ t.out.length ≤ s.out.length + 1 ∧
    (i ≠ .hlt → Expect.systemFrame s t) ∧ (i = .hlt → t.fault = s.fault ∧ t.rs = .halted ∧ t.pc = s.pc)

/-- Frame of PUSH and CALL: besides `x[7]` and `pc` only the one cell at the decremented stack pointer changes. The
address is the one the meanings store to: `x[7]` of the state after the decrement. -/
def Obligations.FrameOfStores : Prop :=
  ∀ (a : Byte) (i : Instr) (s t : State), i = .push a ∨ i = .call a → exec i s = .next t →
    Expect.keepsRegisters s t [7] ∧ t.flags = s.flags ∧ t.out = s.out ∧ Expect.systemFrame s t ∧
    ∀ d : Addr, s.decSp.sp = d → ∀ q : Addr, q ≠ d → t.readMem q = s.readMem q

/-- Frame of POP and RET: besides the destination register (POP), `x[7]` and `pc`, nothing changes; the popped byte stays
in its cell. -/
def Obligations.FrameOfPops : Prop :=
  ∀ (a : Byte) (s t : State),
    (exec (.pop a) s = .next t → Expect.keepsRegisters s t [a.toNat, 7]) ∧
    (exec .ret s = .next t → Expect.keepsRegisters s t [7] ∧ t.rs = s.rs ∧ t.fault = s.fault) ∧
    (exec (.pop a) s = .next t ∨ exec .ret s = .next t →
      t.flags = s.flags ∧ Expect.keepsMemory s t ∧ t.out = s.out ∧ Expect.systemFrame s t)

/-! ### What only some instructions do, over every step -/

/-- A step changes a register only if it is the destination of LDI, MUL, ADD or POP, or it is `x[7]` and the instruction
is PUSH, POP, CALL or RET (`10_state.md` section 2). -/
def Obligations.RegisterWriters : Prop :=
  ∀ (s t : State) (r : RegNum), step s = .next t → t.reg r ≠ s.reg r → ∃ i rest, decode s.fetchWindow = .ok (i, rest) ∧
    ((∃ a b : Byte, a.toNat = r.val ∧ (i = .ldi a b ∨ i = .mul a b ∨ i = .add a b ∨ i = .pop a)) ∨
     (r = 7 ∧ ((∃ a : Byte, i = .push a ∨ i = .pop a ∨ i = .call a) ∨ i = .ret)))

/-- Only CMP changes a flag; only PUSH and CALL change memory, and then only the cell below the stack pointer; only PRN
changes the output, by one value at its end (`10_state.md` sections 4 to 6, `20_memory.md` section 2; the output as a
list of values is the spec's decision D14). -/
def Obligations.FlagMemoryAndOutputWriters : Prop :=
  ∀ s t : State, step s = .next t →
    (t.flags ≠ s.flags → ∃ a b rest, decode s.fetchWindow = .ok (.cmp a b, rest)) ∧
    (∀ q : Addr, t.readMem q ≠ s.readMem q →
      q = s.reg 7 - 1 ∧ ∃ a rest, decode s.fetchWindow = .ok (.push a, rest) ∨ decode s.fetchWindow = .ok (.call a, rest)) ∧
    (t.out ≠ s.out → ∃ (a : Byte) (ha : a.toNat < 8) (rest : List Byte), decode s.fetchWindow = .ok (.prn a, rest) ∧
      t.out = s.out ++ [s.reg ⟨a.toNat, ha⟩]) ∧
    t.out = s.out ++ (outPort s t).toList

/-! ### The ALU and the flags -/

/-- The arithmetic of the ALU: ADD and MUL modulo 256 and commutative, sign-agnostic, with adding `256 - k` subtracting
`k`, multiplying by 255 negating and by a power of two shifting left (`42_alu.md` section 5). -/
def Obligations.AluLaws : Prop :=
  ∀ va vb : Byte,
    (∃ v, alu .add va vb = .value v ∧ v.toNat = (va.toNat + vb.toNat) % 256 ∧ alu .add vb va = .value v ∧
      ((256 : Int) ∣ v.toInt - (va.toInt + vb.toInt))) ∧
    (∃ v, alu .mul va vb = .value v ∧ v.toNat = (va.toNat * vb.toNat) % 256 ∧ alu .mul vb va = .value v ∧
      ((256 : Int) ∣ v.toInt - va.toInt * vb.toInt)) ∧
    (∀ k : Nat, 1 ≤ k → k ≤ 255 → alu .add va (BitVec.ofNat 8 (256 - k)) = .value (va - BitVec.ofNat 8 k)) ∧
    alu .mul va 255 = .value (-va) ∧
    (∀ k : Nat, k ≤ 7 → alu .mul va (BitVec.ofNat 8 (2 ^ k)) = .value (va <<< k))

/-- R125: every CMP that executes rewrites all three flags, whatever they were, and exactly one ends up 1, by the table
of the unsigned relation. -/
def Obligations.CmpSetsExactlyOneFlag : Prop :=
  ∀ (a b : Byte) (ha : a.toNat < 8) (hb : b.toNat < 8) (s t : State), s.rs = .running →
    exec (.cmp a b) s = .next t → t.rs = .running →
    ((s.reg ⟨a.toNat, ha⟩).toNat = (s.reg ⟨b.toNat, hb⟩).toNat → t.flags = ⟨true, false, false⟩) ∧
    ((s.reg ⟨a.toNat, ha⟩).toNat < (s.reg ⟨b.toNat, hb⟩).toNat → t.flags = ⟨false, true, false⟩) ∧
    ((s.reg ⟨b.toNat, hb⟩).toNat < (s.reg ⟨a.toNat, ha⟩).toNat → t.flags = ⟨false, false, true⟩) ∧
    (t.flags.e.toNat + t.flags.l.toNat + t.flags.g.toNat = 1)

/-- R127: ADD and MUL leave the flags; more, over any sequence of instructions without a CMP the flags stay, and a later
JEQ or JNE goes by them. -/
def Obligations.FlagsStayUntilNextCmp : Prop :=
  (∀ (a b : Byte) (s t : State), exec (.add a b) s = .next t ∨ exec (.mul a b) s = .next t → t.flags = s.flags) ∧
  (∀ (is : List Instr) (s t : State), (∀ i ∈ is, ∀ a b, i ≠ .cmp a b) → Expect.execAll is s = some t →
    t.flags = s.flags ∧
    (∀ (a : Byte) (ha : a.toNat < 8), t.pc.toNat + 2 ≤ 255 →
      exec (.jeq a) t = .next { t with pc := if s.flags.e then t.reg ⟨a.toNat, ha⟩ else BitVec.ofNat 8 (t.pc.toNat + 2) } ∧
      exec (.jne a) t = .next { t with pc := if s.flags.e then BitVec.ofNat 8 (t.pc.toNat + 2) else t.reg ⟨a.toNat, ha⟩ }))

/-! ### The stack and subroutines -/

/-- PUSH then POP, with anything between that leaves `x[7]` and the pushed cell as the PUSH left them, moves the
register's value and restores the stack pointer; pushes and pops nest. It is the spec's own inference from its rules
(`43_stack.md` section 4); `r7` as the operand is in `PushStoresBelowStackPointer` and `PopLoadsFromStackPointer`. -/
def Obligations.PushThenPopRestores : Prop :=
  (∀ (a b : Byte) (ha : a.toNat < 7) (hb : b.toNat < 7) (s t u v : State),
    exec (.push a) s = .next t → t.rs ≠ .faulted → u.reg 7 = t.reg 7 → u.readMem (t.reg 7) = t.readMem (t.reg 7) →
    exec (.pop b) u = .next v → v.rs ≠ .faulted →
    v.reg ⟨b.toNat, by omega⟩ = s.reg ⟨a.toNat, by omega⟩ ∧ v.reg 7 = s.reg 7) ∧
  (∀ s t : State, t.rs ≠ .faulted →
    (Expect.execAll [.push 0, .push 1, .pop 1, .pop 0] s = some t →
      t.reg 0 = s.reg 0 ∧ t.reg 1 = s.reg 1 ∧ t.reg 7 = s.reg 7) ∧
    (Expect.execAll [.push 0, .push 1, .pop 0, .pop 1] s = some t →
      t.reg 0 = s.reg 1 ∧ t.reg 1 = s.reg 0 ∧ t.reg 7 = s.reg 7))

/-- CALL then RET, with a body that leaves `x[7]` and the stacked cell as the CALL left them, resumes at the
instruction after the CALL with the stack pointer restored; neither changes another register or a flag, and only CALL
changes memory, in the one stack cell. It is the spec's own inference from its rules (`44_control_flow.md` section 7). -/
def Obligations.CallThenRetResumesAfterCall : Prop :=
  ∀ (a : Byte) (s t u v : State),
    exec (.call a) s = .next t → t.rs ≠ .faulted → u.reg 7 = t.reg 7 → u.readMem (t.reg 7) = t.readMem (t.reg 7) →
    exec .ret u = .next v →
    v.pc.toNat = s.pc.toNat + 2 ∧ v.reg 7 = s.reg 7 ∧
    (∀ r : RegNum, r ≠ 7 → t.reg r = s.reg r ∧ v.reg r = u.reg r) ∧ t.flags = s.flags ∧ v.flags = u.flags ∧
    (∀ q : Addr, q ≠ t.reg 7 → t.readMem q = s.readMem q) ∧ Expect.keepsMemory u v

/-! ### What can be observed -/

/-- `L` and `G` steer nothing: two states that differ only in them step to states that differ at most in them, or stop
alike (`10_state.md` section 4, `44_control_flow.md` section 7). -/
def Obligations.LessAndGreaterSteerNothing : Prop :=
  ∀ (s : State) (l g : Bool),
    (∀ t, step s = .next t → ∃ l' g', step { s with flags := ⟨s.flags.e, l, g⟩ } =
      .next { t with flags := ⟨t.flags.e, l', g'⟩ }) ∧
    (∀ f, step s = .fault f → step { s with flags := ⟨s.flags.e, l, g⟩ } = .fault f)

/-- The output stream is never read: what a step does is the same whatever was printed before, and what was printed stays
a prefix (`10_state.md` section 5; the output as a list of values is the spec's decision D14). -/
def Obligations.OutputIsNeverReadBack : Prop :=
  ∀ (s t : State) (before : List Byte), step s = .next t →
    step { s with out := before } = .next { t with out := before ++ (outPort s t).toList } ∧ s.out <+: t.out

/-! ### Invariant, runs and refinement -/

/-- The invariant holds after reset (`10_state.md` sections 6 and 7): the memory clause is the canonical form, which is the
model's own choice (log entry 18), and `State.reset` already stands at the start of a run (log entry 4). -/
def Obligations.ResetMeetsInvariant : Prop := State.reset.Inv

/-- The invariant holds in every launch state (`70_reset_and_hazards.md` sections 1 and 2): the memory clause is the
canonical form, which is the model's own choice (log entry 18). -/
def Obligations.LaunchMeetsInvariant : Prop :=
  ∀ (sp fill : Byte) (img : List Byte) (s : State), State.launch sp fill img = .ok s → s.Inv

/-- Every step keeps the invariant: canonical memory, legal flags, and a fault record that is empty until a fault and then
explains it (`10_state.md` sections 4 to 6, `60_exceptions.md` sections 1 to 3, `90_conflicts.md` C6; the canonical form
of memory is the model's own, log entry 18). -/
def Obligations.StepKeepsInvariant : Prop := ∀ s t : State, s.Inv → step s = .next t → t.Inv

/-- No run is ever refused, and a run of `k` steps ends early only because an earlier state had stopped
(`40_cycle_and_halt.md` section 1, `70_reset_and_hazards.md` section 6). -/
def Obligations.RunsStopOnlyWhenStopped : Prop :=
  ∀ (k : Nat) (s : State),
    (∃ t, Host.Core.run Sys2Proof.core k s = .next t) ∨
    (∃ j t, j < k ∧ Host.Core.run Sys2Proof.core j s = .next t ∧ State.rs t ≠ .running ∧
      ∃ f, Host.Core.run Sys2Proof.core k s = .fault f ∧ step t = .fault f)

/-- A run ends in exactly one state, in exactly one of two ways, or it has no end (spec decision D23;
`70_reset_and_hazards.md` section 4). -/
def Obligations.RunEndsInOneWayOrNever : Prop :=
  ∀ s : State, (s.runsForever ∧ ¬ ∃ t, s.endsIn t) ∨
    (¬ s.runsForever ∧ ∃! t, s.endsIn t ∧ ((t.completed ∧ ¬ t.goneWrong) ∨ (t.goneWrong ∧ ¬ t.completed)))

/-! #### The spec's step as pseudocode (R96), over plain functions and numbers -/

/-- The mnemonics of R96. -/
inductive Sys2Proof.Ref.Op where
  | HLT | LDI | PRN | MUL | ADD | CMP | PUSH | POP | CALL | RET | JEQ | JNE | JMP
  deriving DecidableEq, Repr

/-- The state of R20 as R96 writes it: numbers, and memory and registers as functions (R60 allows a model so). -/
structure Sys2Proof.Ref.Components where
  x : Nat → Nat
  pc : Nat
  E : Bool
  L : Bool
  G : Bool
  mem : Nat → Nat
  rs : RunState
  fault : Nat × Nat × Nat × Nat
  out : List Nat

/-- `x[i] <- v`. -/
def Sys2Proof.Ref.Components.setX (s : Ref.Components) (i v : Nat) : Ref.Components :=
  { s with x := fun j => if j = i then v % 256 else s.x j }

/-- `MemWrite(addr, 1, v)`. -/
def Sys2Proof.Ref.Components.memWrite (s : Ref.Components) (addr v : Nat) : Ref.Components :=
  { s with mem := fun j => if j = addr then v % 256 else s.mem j }

/-- `raise` (R171). -/
def Sys2Proof.Ref.Components.raised (s : Ref.Components) (code p ir operand : Nat) : Ref.Components :=
  { s with rs := .faulted, fault := (code, p, ir, operand) }

/-- `decode` of R96: the table R76, mnemonic and operand count. -/
def Sys2Proof.Ref.decode (ir : Nat) : Option (Ref.Op × Nat) :=
  if ir = 1 then some (.HLT, 0) else if ir = 130 then some (.LDI, 2) else if ir = 71 then some (.PRN, 1)
  else if ir = 162 then some (.MUL, 2) else if ir = 160 then some (.ADD, 2) else if ir = 167 then some (.CMP, 2)
  else if ir = 69 then some (.PUSH, 1) else if ir = 70 then some (.POP, 1) else if ir = 80 then some (.CALL, 1)
  else if ir = 17 then some (.RET, 0) else if ir = 85 then some (.JEQ, 1) else if ir = 86 then some (.JNE, 1)
  else if ir = 84 then some (.JMP, 1) else none

/-- The arms of R96's `case m of`, statement by statement. -/
def Sys2Proof.Ref.arm (m : Ref.Op) (taken : Bool) (p a b : Nat) (s : Ref.Components) : Ref.Components :=
  match m with
  | .HLT => { s with rs := .halted }
  | .LDI => { s.setX a b with pc := p + 3 }
  | .PRN => { s with out := s.out ++ [s.x a], pc := p + 2 }
  | .MUL => { s.setX a (s.x a * s.x b) with pc := p + 3 }
  | .ADD => { s.setX a (s.x a + s.x b) with pc := p + 3 }
  | .CMP => { s with E := decide (s.x a = s.x b), L := decide (s.x a < s.x b), G := decide (s.x a > s.x b), pc := p + 3 }
  | .PUSH =>
    let s1 := s.setX 7 (s.x 7 + 255)
    { s1.memWrite (s1.x 7) (s1.x a) with pc := p + 2 }
  | .POP =>
    let s1 := s.setX a (s.mem (s.x 7))
    { s1.setX 7 (s1.x 7 + 1) with pc := p + 2 }
  | .CALL =>
    let s1 := s.setX 7 (s.x 7 + 255)
    let s2 := s1.memWrite (s1.x 7) (p + 2)
    { s2 with pc := s2.x a }
  | .RET => { s.setX 7 (s.x 7 + 1) with pc := s.mem (s.x 7) }
  | .JEQ => { s with pc := if taken then s.x a else p + 2 }
  | .JNE => { s with pc := if taken then s.x a else p + 2 }
  | .JMP => { s with pc := s.x a }

/-- `Step` of R96, line by line; `(v - 1) mod 256` is written `(v + 255) mod 256`. -/
def Sys2Proof.Ref.step (s : Ref.Components) : Ref.Components :=
  let p := s.pc
  let ir := s.mem p
  match Ref.decode ir with
  | none => s.raised 1 p ir 0
  | some (m, n) =>
    if p + n > 255 then s.raised 2 p ir 0
    else
      let a := s.mem (p + 1)
      let b := s.mem (p + 2)
      if 1 ≤ n ∧ a > 7 then s.raised 3 p ir a
      else if n = 2 ∧ m ≠ .LDI ∧ b > 7 then s.raised 3 p ir b
      else
        let taken := decide (m = .JMP ∨ (m = .JEQ ∧ s.E = true) ∨ (m = .JNE ∧ s.E = false))
        let usesNext := m ∈ [Ref.Op.LDI, .PRN, .MUL, .ADD, .CMP, .PUSH, .POP, .CALL] ∨
          (m ∈ [Ref.Op.JEQ, .JNE] ∧ taken = false)
        if usesNext ∧ p + (1 + n) > 255 then s.raised 4 p ir 0
        else Ref.arm m taken p a b s

/-- The model's state seen as R96's. -/
def Sys2Proof.Ref.view (s : Machine.State) : Ref.Components where
  x := fun i => if h : i < 8 then (s.reg ⟨i, h⟩).toNat else 0
  pc := s.pc.toNat
  E := s.flags.e
  L := s.flags.l
  G := s.flags.g
  mem := fun a => if a < 256 then (s.readMem (BitVec.ofNat 8 a)).toNat else 0
  rs := s.rs
  fault := (s.fault.cause.code, s.fault.addr.toNat, s.fault.ir.toNat, s.fault.operand.toNat)
  out := s.out.map (fun v => v.toNat)

/-- R96: the model's step is the spec's step function: from every running state it answers the state that R96's pseudocode
gives, in every component. -/
def Obligations.StepRefinesPseudocode : Prop :=
  ∀ s : Machine.State, s.rs = .running → ∃ t, step s = .next t ∧ Ref.step (Ref.view s) = Ref.view t

/-! ### The host's events: when they may happen (R203, R204; spec decision D15) -/

/-- Each event and what it does, exactly where it may happen: reset at any time, load and start only between reset and
start; a cycle only after start and while the core runs; and the whole state is read only after the machine has stopped
(spec decision D15; `70_reset_and_hazards.md` sections 1 and 3; the phase beside the core is the model's, log entry 16, and
so is the run state that a reset leaves until start, log entry 4). -/
def Obligations.HostEventsWhereAllowed : Prop :=
  ∀ (sp fill : Byte) (h k : Session),
    (h.event sp fill .reset = some k ↔ k = ⟨.loading, State.resetWith sp fill⟩) ∧
    (∀ (a : Addr) (v : Byte), h.event sp fill (.load a v) = some k ↔
      h.phase = .loading ∧ k = ⟨.loading, h.core.writeMem a v⟩) ∧
    (h.event sp fill .start = some k ↔ h.phase = .loading ∧ k = ⟨.started, { h.core with rs := .running }⟩) ∧
    (h.advance = some k ↔ h.phase = .started ∧ k.phase = .started ∧ step h.core = .next k.core) ∧
    (∀ s, h.endState = some s ↔ h.phase = .started ∧ h.core.rs ≠ .running ∧ s = h.core)

/-- Over any sequence of moves: after a start neither a load nor another start happens before a reset, and after a reset no
cycle happens before a start (spec decision D15; `70_reset_and_hazards.md` sections 1 and 3). -/
def Obligations.EventsComeInOrder : Prop :=
  ∀ (sp fill : Byte) (ms : List Move) (h k : Session),
    (∀ e, (e = .start ∨ ∃ a v, e = .load a v) →
      h.moves sp fill ([.host .start] ++ ms ++ [.host e]) = some k → .host .reset ∈ ms) ∧
    (h.moves sp fill ([.host .reset] ++ ms ++ [.cycle]) = some k → .host .start ∈ ms)

/-- Between start and the next reset the host does nothing: every sequence of moves without a reset is cycles only, and the
core goes through exactly the run of that many steps (spec decision D15; `70_reset_and_hazards.md` section 3). -/
def Obligations.HostLeavesARunAlone : Prop :=
  ∀ (sp fill : Byte) (ms : List Move) (h k : Session),
    h.phase = .started → .host .reset ∉ ms → h.moves sp fill ms = some k →
    ms = List.replicate ms.length .cycle ∧ k.phase = .started ∧
    Host.Core.run Sys2Proof.core ms.length h.core = .next k.core

/-- From any session, stopped ones included, reset, the image's bytes loaded from address 0 in order, and start are accepted
and leave exactly the launch state of that image (spec decisions D7 to D9, D15; `70_reset_and_hazards.md` sections 1 to 3). -/
def Obligations.EventsGiveTheLaunchState : Prop :=
  ∀ (sp fill : Byte) (img : List Byte) (h : Session), img.length ≤ 256 →
    ∃ s, State.launch sp fill img = .ok s ∧
      h.moves sp fill (.host .reset :: (imageEvents 0 img).map .host ++ [.host .start]) = some ⟨.started, s⟩

/-- Every sequence of moves, of the host and of the core, keeps the session's invariant, and a reset meets it (spec decision
D15; `70_reset_and_hazards.md` section 3, `10_state.md` sections 4 to 6). Two clauses are the model's choice: the canonical
form of memory (log entry 18), and that the core already holds RUNNING while it is loaded (log entry 4). -/
def Obligations.MovesKeepInvariant : Prop :=
  ∀ (sp fill : Byte) (ms : List Move) (h k : Session),
    (h.Inv → h.moves sp fill ms = some k → k.Inv) ∧
    (h.moves sp fill (.host .reset :: ms) = some k → k.Inv)
end

