-- ==== Sys2Proof/Laws/Assembly.lean ====
section
/-! SUPPORT. What is written in the assembly notation reads back: numbers, registers, immediates. -/

namespace Sys2Proof.Machine

theorem immediateNumber_decimalNumeral : ∀ v : Byte, immediateNumber (decimalNumeral v) = some v.toNat := by decide

theorem readRegister_registerName : ∀ a : Byte, a.toNat ≤ 7 → readRegister (registerName a) = some a := by decide

theorem readImmediate_decimalNumeral (labels : Labels) (v : Byte) :
    readImmediate labels (decimalNumeral v) = some v := by
  have := v.isLt
  simp [readImmediate, immediateNumber_decimalNumeral]
  omega

end Sys2Proof.Machine
end

