-- ==== Sys2Proof/Laws/Decode.lean ====
section
/-! SUPPORT. The decoder's lemmas: what each opcode byte selects, and what an opcode outside the table gives. -/

namespace Sys2Proof

theorem decode_nil : decode [] = .error .truncated := rfl

theorem decode_hlt (r : List Byte) : decode (0x01 :: r) = .ok (.hlt, r) := rfl

theorem decode_ret (r : List Byte) : decode (0x11 :: r) = .ok (.ret, r) := rfl

theorem decode_prn (a : Byte) (r : List Byte) : decode (0x47 :: a :: r) = .ok (.prn a, r) := by
  simp [decode, lookupOpcode, opcodeTable]

theorem decode_push (a : Byte) (r : List Byte) : decode (0x45 :: a :: r) = .ok (.push a, r) := by
  simp [decode, lookupOpcode, opcodeTable]

theorem decode_pop (a : Byte) (r : List Byte) : decode (0x46 :: a :: r) = .ok (.pop a, r) := by
  simp [decode, lookupOpcode, opcodeTable]

theorem decode_call (a : Byte) (r : List Byte) : decode (0x50 :: a :: r) = .ok (.call a, r) := by
  simp [decode, lookupOpcode, opcodeTable]

theorem decode_jeq (a : Byte) (r : List Byte) : decode (0x55 :: a :: r) = .ok (.jeq a, r) := by
  simp [decode, lookupOpcode, opcodeTable]

theorem decode_jne (a : Byte) (r : List Byte) : decode (0x56 :: a :: r) = .ok (.jne a, r) := by
  simp [decode, lookupOpcode, opcodeTable]

theorem decode_jmp (a : Byte) (r : List Byte) : decode (0x54 :: a :: r) = .ok (.jmp a, r) := by
  simp [decode, lookupOpcode, opcodeTable]

theorem decode_ldi (a imm : Byte) (r : List Byte) : decode (0x82 :: a :: imm :: r) = .ok (.ldi a imm, r) := by
  simp [decode, lookupOpcode, opcodeTable]

theorem decode_mul (a b : Byte) (r : List Byte) : decode (0xA2 :: a :: b :: r) = .ok (.mul a b, r) := by
  simp [decode, lookupOpcode, opcodeTable]

theorem decode_add (a b : Byte) (r : List Byte) : decode (0xA0 :: a :: b :: r) = .ok (.add a b, r) := by
  simp [decode, lookupOpcode, opcodeTable]

theorem decode_cmp (a b : Byte) (r : List Byte) : decode (0xA7 :: a :: b :: r) = .ok (.cmp a b, r) := by
  simp [decode, lookupOpcode, opcodeTable]

/-- An opcode byte selects only a row of the table whose pattern it is. -/
theorem lookupOpcode_some {ir : Byte} {row : OpcodeRow} (h : lookupOpcode ir = some row) :
    row ∈ opcodeTable ∧ row.opcode = ir :=
  ⟨List.mem_of_find?_eq_some h, by simpa using List.find?_some h⟩

/-- An opcode byte selects nothing exactly when it is the pattern of no row. -/
theorem lookupOpcode_none {ir : Byte} : lookupOpcode ir = none ↔ ∀ row ∈ opcodeTable, row.opcode ≠ ir := by
  simp [lookupOpcode]

/-- What a successful decode means: the table's row, enough operand bytes, and the instruction that the row builds. -/
theorem decode_ok {ir : Byte} {bs rest : List Byte} {i : Instr} (h : decode (ir :: bs) = .ok (i, rest)) :
    ∃ row, lookupOpcode ir = some row ∧ row.operands ≤ bs.length ∧ i = row.build (bs.getD 0 0) (bs.getD 1 0) ∧
      rest = bs.drop row.operands := by
  simp only [decode] at h
  split at h
  · cases h
  · next row hrow =>
    split at h
    · next hlen =>
      cases h
      exact ⟨row, hrow, hlen, rfl, rfl⟩
    · cases h

/-- Why a decode fails. -/
theorem decode_error {ir : Byte} {bs : List Byte} {e : DecodeError} (h : decode (ir :: bs) = .error e) :
    (e = .illegalOpcode ∧ lookupOpcode ir = none) ∨
      (e = .truncated ∧ ∃ row, lookupOpcode ir = some row ∧ bs.length < row.operands) := by
  simp only [decode] at h
  split at h
  · next hn =>
    cases h
    exact .inl ⟨rfl, hn⟩
  · next row hrow =>
    split at h
    · cases h
    · next hlen =>
      cases h
      exact .inr ⟨rfl, row, hrow, by omega⟩

end Sys2Proof
end

