-- ==== Sys2Proof/Laws/Memory.lean ====
section
/-! SUPPORT. The laws of memory: a read after a write, and that every memory operation keeps the canonical form. -/

namespace Sys2Proof.Machine

/-! ### Cells -/

@[simp] theorem lookupCell_nil (k : Nat) : lookupCell k [] = Config.memFill := rfl

theorem lookupCell_cons (k : Nat) (c : Host.Cell) (m : Memory) :
    lookupCell k (c :: m) = if c.1 = k then c.2 else lookupCell k m := rfl

theorem lookupCell_insertCell_self (k : Nat) (v : Byte) (m : Memory) : lookupCell k (insertCell k v m) = v := by
  induction m with
  | nil => simp [insertCell, lookupCell]
  | cons c m ih =>
    simp only [insertCell]
    split
    · simp [lookupCell]
    · split
      · simp [lookupCell]
      · next h => simp [lookupCell, h, ih]

theorem lookupCell_insertCell_ne {k j : Nat} (v : Byte) (m : Memory) (h : j ≠ k) :
    lookupCell j (insertCell k v m) = lookupCell j m := by
  induction m with
  | nil => simp [insertCell, lookupCell, Ne.symm h]
  | cons c m ih =>
    simp only [insertCell]
    split
    · simp [lookupCell, Ne.symm h]
    · split
      · next hc => simp [lookupCell, hc, Ne.symm h]
      · simp [lookupCell, ih]

theorem lookupCell_eraseCell_self (k : Nat) (m : Memory) : lookupCell k (eraseCell k m) = Config.memFill := by
  induction m with
  | nil => rfl
  | cons c m ih =>
    by_cases h : c.1 = k
    · simpa [eraseCell, h] using ih
    · simpa [eraseCell, h, lookupCell] using ih

theorem lookupCell_eraseCell_ne {k j : Nat} (m : Memory) (h : j ≠ k) :
    lookupCell j (eraseCell k m) = lookupCell j m := by
  induction m with
  | nil => rfl
  | cons c m ih =>
    by_cases hc : c.1 = k
    · have : c.1 ≠ j := fun e => h (e ▸ hc)
      simpa [eraseCell, hc, lookupCell, Ne.symm h] using ih
    · by_cases hj : c.1 = j
      · simp [eraseCell, lookupCell, hj, h]
      · simpa [eraseCell, hc, lookupCell, hj] using ih

theorem mem_insertCell {k : Nat} {v : Byte} {m : Memory} {c : Host.Cell} (h : c ∈ insertCell k v m) :
    c = (k, v) ∨ c ∈ m := by
  induction m with
  | nil => exact .inl (by simpa [insertCell] using h)
  | cons d m ih =>
    simp only [insertCell] at h
    split at h
    · simpa using h
    · split at h
      · rcases List.mem_cons.1 h with h | h
        · exact .inl h
        · exact .inr (List.mem_cons_of_mem _ h)
      · rcases List.mem_cons.1 h with h | h
        · exact .inr (h ▸ List.mem_cons_self)
        · rcases ih h with h | h
          · exact .inl h
          · exact .inr (List.mem_cons_of_mem _ h)

theorem pairwise_insertCell (k : Nat) (v : Byte) {m : Memory} (h : m.Pairwise (fun c d => c.1 < d.1)) :
    (insertCell k v m).Pairwise (fun c d => c.1 < d.1) := by
  induction m with
  | nil => simp [insertCell]
  | cons c m ih =>
    obtain ⟨hc, hm⟩ := List.pairwise_cons.1 h
    simp only [insertCell]
    split
    · next hk =>
      refine List.pairwise_cons.2 ⟨fun d hd => ?_, h⟩
      rcases List.mem_cons.1 hd with rfl | hd
      · exact hk
      · exact hk.trans (hc d hd)
    · split
      · next hk => exact List.pairwise_cons.2 ⟨fun d hd => hk ▸ hc d hd, hm⟩
      · next h1 h2 =>
        refine List.pairwise_cons.2 ⟨fun d hd => ?_, ih hm⟩
        rcases mem_insertCell hd with rfl | hd
        · show c.1 < k
          omega
        · exact hc d hd

/-! ### Reads and writes -/

/-- What one write does to every read. -/
theorem Memory.read_write (m : Memory) (a b : Addr) (v : Byte) :
    (m.write a v).read b = if b = a then v else m.read b := by
  unfold Memory.write Memory.read
  by_cases h : b = a
  · subst h
    by_cases hv : v = Config.memFill
    · simp [hv, lookupCell_eraseCell_self]
    · simp [hv, lookupCell_insertCell_self]
  · have hn : b.toNat ≠ a.toNat := fun e => h (BitVec.eq_of_toNat_eq e)
    by_cases hv : v = Config.memFill
    · simp [hv, h, lookupCell_eraseCell_ne m hn]
    · simp [hv, h, lookupCell_insertCell_ne v m hn]

@[simp] theorem Memory.read_write_self (m : Memory) (a : Addr) (v : Byte) : (m.write a v).read a = v := by
  simp [Memory.read_write]

theorem Memory.read_write_ne (m : Memory) {a b : Addr} (v : Byte) (h : b ≠ a) : (m.write a v).read b = m.read b := by
  simp [Memory.read_write, h]

@[simp] theorem Memory.read_nil (a : Addr) : Memory.read [] a = Config.memFill := rfl

theorem State.readMem_eq (s : State) (a : Addr) : s.readMem a = s.mem.read a := rfl

@[simp] theorem State.readMem_writeMem_self (s : State) (a : Addr) (v : Byte) : (s.writeMem a v).readMem a = v :=
  Memory.read_write_self _ _ _

theorem State.readMem_writeMem_ne (s : State) {a b : Addr} (v : Byte) (h : b ≠ a) :
    (s.writeMem a v).readMem b = s.readMem b := Memory.read_write_ne _ _ h

@[simp] theorem State.readMem_storeTop_self (s : State) (v : Byte) : (s.storeTop v).readMem s.sp = v :=
  Memory.read_write_self _ _ _

theorem State.readMem_storeTop_ne (s : State) {b : Addr} (v : Byte) (h : b ≠ s.sp) :
    (s.storeTop v).readMem b = s.readMem b := Memory.read_write_ne _ _ h

/-- The byte a push stored, read at the address it was stored to. -/
@[simp] theorem State.readMem_decSp_storeTop_self (s : State) (v : Byte) :
    (s.decSp.storeTop v).readMem (s.sp - 1#8) = v := by
  have h := s.decSp.readMem_storeTop_self v
  rwa [show s.decSp.sp = s.sp - 1 from by simp [State.decSp, State.sp, State.reg, State.setReg]] at h

/-! ### The canonical form -/

@[simp] theorem Memory.wf_nil : Memory.wf [] := ⟨List.Pairwise.nil, by simp⟩

/-- A write keeps the canonical form. -/
theorem Memory.write_wf {m : Memory} (h : m.wf) (a : Addr) (v : Byte) : (m.write a v).wf := by
  obtain ⟨hp, hc⟩ := h
  unfold Memory.write
  split
  · exact ⟨hp.filter _, fun c hm => hc c (List.mem_of_mem_filter hm)⟩
  · next hv =>
    refine ⟨pairwise_insertCell _ _ hp, fun c hm => ?_⟩
    rcases mem_insertCell hm with rfl | hm
    · exact ⟨a.isLt, hv⟩
    · exact hc c hm

/-- Bytes placed one after another keep the canonical form. -/
theorem Memory.writeFrom_wf {m : Memory} (h : m.wf) (a : Nat) (vs : List Byte) : (m.writeFrom a vs).wf := by
  induction vs generalizing m a with
  | nil => exact h
  | cons v vs ih =>
    simp only [Memory.writeFrom]
    split
    · exact ih (Memory.write_wf h _ _) _
    · exact h

/-- Filled memory is in canonical form. -/
theorem Memory.filled_wf (fill : Byte) : (Memory.filled fill).wf := by
  unfold Memory.filled
  split
  · exact Memory.wf_nil
  · next hv =>
    refine ⟨List.pairwise_map.2 (List.pairwise_lt_range.imp fun h => h), fun c hc => ?_⟩
    obtain ⟨k, hk, rfl⟩ := List.mem_map.1 hc
    exact ⟨List.mem_range.1 hk, hv⟩

theorem State.reset_mem_wf : State.reset.mem.wf := Memory.wf_nil

theorem State.writeMem_wf {s : State} (h : s.mem.wf) (a : Addr) (v : Byte) : (s.writeMem a v).mem.wf :=
  Memory.write_wf h a v

theorem State.storeTop_wf {s : State} (h : s.mem.wf) (v : Byte) : (s.storeTop v).mem.wf := Memory.write_wf h _ v

theorem State.load_wf {s : State} (h : s.mem.wf) (a : Addr) (v : Byte) : (s.load a v).mem.wf := Memory.write_wf h a v

theorem State.placeImage_wf {s : State} (h : s.mem.wf) (img : List Byte) : (s.placeImage img).mem.wf :=
  Memory.writeFrom_wf h _ _

theorem State.withFetchWord_wf {s : State} (h : s.mem.wf) (nbits w : Nat) : (s.withFetchWord nbits w).mem.wf :=
  Memory.writeFrom_wf h _ _

/-! ### Reading several bytes -/

/-- The k-th byte of a read from `a` on exists exactly below `count` and below the top of memory. -/
theorem Memory.readFrom_getElem? (m : Memory) (a count k : Nat) :
    (m.readFrom a count)[k]? = if k < count ∧ a + k < 256 then some (m.read (BitVec.ofNat 8 (a + k))) else none := by
  induction count generalizing a k with
  | zero => simp [Memory.readFrom]
  | succ count ih =>
    simp only [Memory.readFrom]
    by_cases h : a < Config.memSize
    · have h' : a < 256 := h
      rw [if_pos h]
      cases k with
      | zero => simp [h']
      | succ k =>
        rw [List.getElem?_cons_succ, ih]
        simp only [Nat.add_lt_add_iff_right, show a + 1 + k = a + (k + 1) by omega]
    · have h' : ¬ a < 256 := h
      rw [if_neg h, if_neg (by omega)]
      rfl

/-- Reading what bytes were placed, and every other address as before. -/
theorem Memory.read_writeFrom (m : Memory) (a : Nat) (vs : List Byte) (b : Addr) :
    (m.writeFrom a vs).read b = if a ≤ b.toNat then (vs[b.toNat - a]?).getD (m.read b) else m.read b := by
  induction vs generalizing m a with
  | nil => simp [Memory.writeFrom]
  | cons v vs ih =>
    simp only [Memory.writeFrom]
    have hb := b.isLt
    by_cases h : a < Config.memSize
    · have h' : a < 256 := h
      rw [if_pos h, ih, Memory.read_write]
      have hk : (BitVec.ofNat 8 a).toNat = a := by simp; omega
      by_cases he : b.toNat = a
      · have : b = BitVec.ofNat 8 a := BitVec.eq_of_toNat_eq (by rw [hk, he])
        rw [if_neg (by omega), if_pos this, if_pos (by omega), he]
        simp
      · have : b ≠ BitVec.ofNat 8 a := fun e => he (by rw [e, hk])
        rw [if_neg this]
        by_cases hle : a + 1 ≤ b.toNat
        · rw [if_pos hle, if_pos (by omega), show b.toNat - a = (b.toNat - (a + 1)) + 1 by omega,
            List.getElem?_cons_succ]
        · rw [if_neg hle, if_neg (by omega)]
    · have h' : ¬ a < 256 := h
      rw [if_neg h, if_neg (by omega)]

theorem lookupCell_map_fill (fill : Byte) (l : List Nat) (k : Nat) :
    lookupCell k (l.map (fun j => (j, fill))) = if k ∈ l then fill else Config.memFill := by
  induction l with
  | nil => rfl
  | cons j l ih =>
    rw [List.map_cons, lookupCell_cons, ih]
    by_cases h : j = k
    · simp [h]
    · simp [h, Ne.symm h]

/-- Filled memory reads as the fill everywhere. -/
@[simp] theorem Memory.read_filled (fill : Byte) (a : Addr) : (Memory.filled fill).read a = fill := by
  unfold Memory.filled Memory.read
  split
  · next h => simp [h]
  · rw [lookupCell_map_fill]
    exact if_pos (List.mem_range.2 a.isLt)

end Sys2Proof.Machine
end

