-- ==== Sys2Proof/Laws/State.lean ====
section
/-! SUPPORT. One lemma per field per state update, all true by rfl, so that no later proof unfolds a record update; and
the read-after-write laws of the register file. -/

namespace Sys2Proof.Machine

@[simp] theorem State.setReg_x (s : State) (r : RegNum) (v : Byte) : (s.setReg r v).x = s.x.set r.val v := rfl
@[simp] theorem State.setReg_pc (s : State) (r : RegNum) (v : Byte) : (s.setReg r v).pc = s.pc := rfl
@[simp] theorem State.setReg_flags (s : State) (r : RegNum) (v : Byte) : (s.setReg r v).flags = s.flags := rfl
@[simp] theorem State.setReg_mem (s : State) (r : RegNum) (v : Byte) : (s.setReg r v).mem = s.mem := rfl
@[simp] theorem State.setReg_rs (s : State) (r : RegNum) (v : Byte) : (s.setReg r v).rs = s.rs := rfl
@[simp] theorem State.setReg_fault (s : State) (r : RegNum) (v : Byte) : (s.setReg r v).fault = s.fault := rfl
@[simp] theorem State.setReg_out (s : State) (r : RegNum) (v : Byte) : (s.setReg r v).out = s.out := rfl

@[simp] theorem State.setPc_x (s : State) (a : Addr) : (s.setPc a).x = s.x := rfl
@[simp] theorem State.setPc_pc (s : State) (a : Addr) : (s.setPc a).pc = a := rfl
@[simp] theorem State.setPc_flags (s : State) (a : Addr) : (s.setPc a).flags = s.flags := rfl
@[simp] theorem State.setPc_mem (s : State) (a : Addr) : (s.setPc a).mem = s.mem := rfl
@[simp] theorem State.setPc_rs (s : State) (a : Addr) : (s.setPc a).rs = s.rs := rfl
@[simp] theorem State.setPc_fault (s : State) (a : Addr) : (s.setPc a).fault = s.fault := rfl
@[simp] theorem State.setPc_out (s : State) (a : Addr) : (s.setPc a).out = s.out := rfl

@[simp] theorem State.setFlags_x (s : State) (f : Flags) : (s.setFlags f).x = s.x := rfl
@[simp] theorem State.setFlags_pc (s : State) (f : Flags) : (s.setFlags f).pc = s.pc := rfl
@[simp] theorem State.setFlags_flags (s : State) (f : Flags) : (s.setFlags f).flags = f := rfl
@[simp] theorem State.setFlags_mem (s : State) (f : Flags) : (s.setFlags f).mem = s.mem := rfl
@[simp] theorem State.setFlags_rs (s : State) (f : Flags) : (s.setFlags f).rs = s.rs := rfl
@[simp] theorem State.setFlags_fault (s : State) (f : Flags) : (s.setFlags f).fault = s.fault := rfl
@[simp] theorem State.setFlags_out (s : State) (f : Flags) : (s.setFlags f).out = s.out := rfl

@[simp] theorem State.emit_x (s : State) (v : Byte) : (s.emit v).x = s.x := rfl
@[simp] theorem State.emit_pc (s : State) (v : Byte) : (s.emit v).pc = s.pc := rfl
@[simp] theorem State.emit_flags (s : State) (v : Byte) : (s.emit v).flags = s.flags := rfl
@[simp] theorem State.emit_mem (s : State) (v : Byte) : (s.emit v).mem = s.mem := rfl
@[simp] theorem State.emit_rs (s : State) (v : Byte) : (s.emit v).rs = s.rs := rfl
@[simp] theorem State.emit_fault (s : State) (v : Byte) : (s.emit v).fault = s.fault := rfl
@[simp] theorem State.emit_out (s : State) (v : Byte) : (s.emit v).out = s.out ++ [v] := rfl

@[simp] theorem State.halt_x (s : State) : (s.halt).x = s.x := rfl
@[simp] theorem State.halt_pc (s : State) : (s.halt).pc = s.pc := rfl
@[simp] theorem State.halt_flags (s : State) : (s.halt).flags = s.flags := rfl
@[simp] theorem State.halt_mem (s : State) : (s.halt).mem = s.mem := rfl
@[simp] theorem State.halt_rs (s : State) : (s.halt).rs = .halted := rfl
@[simp] theorem State.halt_fault (s : State) : (s.halt).fault = s.fault := rfl
@[simp] theorem State.halt_out (s : State) : (s.halt).out = s.out := rfl

@[simp] theorem State.writeMem_x (s : State) (a : Addr) (v : Byte) : (s.writeMem a v).x = s.x := rfl
@[simp] theorem State.writeMem_pc (s : State) (a : Addr) (v : Byte) : (s.writeMem a v).pc = s.pc := rfl
@[simp] theorem State.writeMem_flags (s : State) (a : Addr) (v : Byte) : (s.writeMem a v).flags = s.flags := rfl
@[simp] theorem State.writeMem_mem (s : State) (a : Addr) (v : Byte) : (s.writeMem a v).mem = s.mem.write a v := rfl
@[simp] theorem State.writeMem_rs (s : State) (a : Addr) (v : Byte) : (s.writeMem a v).rs = s.rs := rfl
@[simp] theorem State.writeMem_fault (s : State) (a : Addr) (v : Byte) : (s.writeMem a v).fault = s.fault := rfl
@[simp] theorem State.writeMem_out (s : State) (a : Addr) (v : Byte) : (s.writeMem a v).out = s.out := rfl

@[simp] theorem State.raise_x (s : State) (c : FaultCause) (o : Byte) : (s.raise c o).x = s.x := rfl
@[simp] theorem State.raise_pc (s : State) (c : FaultCause) (o : Byte) : (s.raise c o).pc = s.pc := rfl
@[simp] theorem State.raise_flags (s : State) (c : FaultCause) (o : Byte) : (s.raise c o).flags = s.flags := rfl
@[simp] theorem State.raise_mem (s : State) (c : FaultCause) (o : Byte) : (s.raise c o).mem = s.mem := rfl
@[simp] theorem State.raise_rs (s : State) (c : FaultCause) (o : Byte) : (s.raise c o).rs = .faulted := rfl
@[simp] theorem State.raise_fault (s : State) (c : FaultCause) (o : Byte) : (s.raise c o).fault = ⟨c, s.pc, s.readMem s.pc, o⟩ := rfl
@[simp] theorem State.raise_out (s : State) (c : FaultCause) (o : Byte) : (s.raise c o).out = s.out := rfl

@[simp] theorem State.decSp_x (s : State) : (s.decSp).x = s.x.set 7 (s.sp - 1) := rfl
@[simp] theorem State.decSp_pc (s : State) : (s.decSp).pc = s.pc := rfl
@[simp] theorem State.decSp_flags (s : State) : (s.decSp).flags = s.flags := rfl
@[simp] theorem State.decSp_mem (s : State) : (s.decSp).mem = s.mem := rfl
@[simp] theorem State.decSp_rs (s : State) : (s.decSp).rs = s.rs := rfl
@[simp] theorem State.decSp_fault (s : State) : (s.decSp).fault = s.fault := rfl
@[simp] theorem State.decSp_out (s : State) : (s.decSp).out = s.out := rfl

@[simp] theorem State.incSp_x (s : State) : (s.incSp).x = s.x.set 7 (s.sp + 1) := rfl
@[simp] theorem State.incSp_pc (s : State) : (s.incSp).pc = s.pc := rfl
@[simp] theorem State.incSp_flags (s : State) : (s.incSp).flags = s.flags := rfl
@[simp] theorem State.incSp_mem (s : State) : (s.incSp).mem = s.mem := rfl
@[simp] theorem State.incSp_rs (s : State) : (s.incSp).rs = s.rs := rfl
@[simp] theorem State.incSp_fault (s : State) : (s.incSp).fault = s.fault := rfl
@[simp] theorem State.incSp_out (s : State) : (s.incSp).out = s.out := rfl

@[simp] theorem State.storeTop_x (s : State) (v : Byte) : (s.storeTop v).x = s.x := rfl
@[simp] theorem State.storeTop_pc (s : State) (v : Byte) : (s.storeTop v).pc = s.pc := rfl
@[simp] theorem State.storeTop_flags (s : State) (v : Byte) : (s.storeTop v).flags = s.flags := rfl
@[simp] theorem State.storeTop_mem (s : State) (v : Byte) : (s.storeTop v).mem = s.mem.write s.sp v := rfl
@[simp] theorem State.storeTop_rs (s : State) (v : Byte) : (s.storeTop v).rs = s.rs := rfl
@[simp] theorem State.storeTop_fault (s : State) (v : Byte) : (s.storeTop v).fault = s.fault := rfl
@[simp] theorem State.storeTop_out (s : State) (v : Byte) : (s.storeTop v).out = s.out := rfl

@[simp] theorem State.load_x (s : State) (a : Addr) (v : Byte) : (s.load a v).x = s.x := rfl
@[simp] theorem State.load_pc (s : State) (a : Addr) (v : Byte) : (s.load a v).pc = s.pc := rfl
@[simp] theorem State.load_flags (s : State) (a : Addr) (v : Byte) : (s.load a v).flags = s.flags := rfl
@[simp] theorem State.load_mem (s : State) (a : Addr) (v : Byte) : (s.load a v).mem = s.mem.write a v := rfl
@[simp] theorem State.load_rs (s : State) (a : Addr) (v : Byte) : (s.load a v).rs = s.rs := rfl
@[simp] theorem State.load_fault (s : State) (a : Addr) (v : Byte) : (s.load a v).fault = s.fault := rfl
@[simp] theorem State.load_out (s : State) (a : Addr) (v : Byte) : (s.load a v).out = s.out := rfl

@[simp] theorem State.placeImage_x (s : State) (img : List Byte) : (s.placeImage img).x = s.x := rfl
@[simp] theorem State.placeImage_pc (s : State) (img : List Byte) : (s.placeImage img).pc = s.pc := rfl
@[simp] theorem State.placeImage_flags (s : State) (img : List Byte) : (s.placeImage img).flags = s.flags := rfl
@[simp] theorem State.placeImage_mem (s : State) (img : List Byte) : (s.placeImage img).mem = s.mem.writeFrom Config.loadBase img := rfl
@[simp] theorem State.placeImage_rs (s : State) (img : List Byte) : (s.placeImage img).rs = s.rs := rfl
@[simp] theorem State.placeImage_fault (s : State) (img : List Byte) : (s.placeImage img).fault = s.fault := rfl
@[simp] theorem State.placeImage_out (s : State) (img : List Byte) : (s.placeImage img).out = s.out := rfl

@[simp] theorem State.start_x (s : State) : (s.start).x = s.x := rfl
@[simp] theorem State.start_pc (s : State) : (s.start).pc = s.pc := rfl
@[simp] theorem State.start_flags (s : State) : (s.start).flags = s.flags := rfl
@[simp] theorem State.start_mem (s : State) : (s.start).mem = s.mem := rfl
@[simp] theorem State.start_rs (s : State) : (s.start).rs = .running := rfl
@[simp] theorem State.start_fault (s : State) : (s.start).fault = s.fault := rfl
@[simp] theorem State.start_out (s : State) : (s.start).out = s.out := rfl

@[simp] theorem State.withFetchWord_x (s : State) (nbits w : Nat) : (s.withFetchWord nbits w).x = s.x := rfl
@[simp] theorem State.withFetchWord_pc (s : State) (nbits w : Nat) : (s.withFetchWord nbits w).pc = s.pc := rfl
@[simp] theorem State.withFetchWord_flags (s : State) (nbits w : Nat) : (s.withFetchWord nbits w).flags = s.flags := rfl
@[simp] theorem State.withFetchWord_mem (s : State) (nbits w : Nat) : (s.withFetchWord nbits w).mem = s.mem.writeFrom s.pc.toNat (wordBytes nbits w) := rfl
@[simp] theorem State.withFetchWord_rs (s : State) (nbits w : Nat) : (s.withFetchWord nbits w).rs = .running := rfl
@[simp] theorem State.withFetchWord_fault (s : State) (nbits w : Nat) : (s.withFetchWord nbits w).fault = s.fault := rfl
@[simp] theorem State.withFetchWord_out (s : State) (nbits w : Nat) : (s.withFetchWord nbits w).out = s.out := rfl

/-! ### Register reads after register writes -/

theorem State.reg_eq (s : State) (r : RegNum) : s.reg r = s.x[r.val] := rfl

theorem State.sp_eq (s : State) : s.sp = s.reg 7 := rfl

@[simp] theorem State.reg_setReg_self (s : State) (r : RegNum) (v : Byte) : (s.setReg r v).reg r = v := by
  simp [State.reg]

theorem State.reg_setReg_ne (s : State) {r q : RegNum} (v : Byte) (h : q ≠ r) : (s.setReg r v).reg q = s.reg q := by
  have : r.val ≠ q.val := fun e => h (Fin.ext e.symm)
  simp [State.reg, this]

theorem State.reg_setReg (s : State) (r q : RegNum) (v : Byte) :
    (s.setReg r v).reg q = if q = r then v else s.reg q := by
  split
  · next h => simp [h]
  · next h => exact s.reg_setReg_ne v h

@[simp] theorem State.sp_decSp (s : State) : s.decSp.sp = s.sp - 1 := s.reg_setReg_self 7 _

@[simp] theorem State.sp_incSp (s : State) : s.incSp.sp = s.sp + 1 := s.reg_setReg_self 7 _

theorem State.reg_decSp (s : State) (q : RegNum) : s.decSp.reg q = if q = 7 then s.sp - 1 else s.reg q :=
  s.reg_setReg 7 q _

theorem State.reg_incSp (s : State) (q : RegNum) : s.incSp.reg q = if q = 7 then s.sp + 1 else s.reg q :=
  s.reg_setReg 7 q _

/-! ### Register and memory reads through the other updates -/

@[simp] theorem State.setReg_readMem (s : State) (r : RegNum) (v : Byte) (d : Addr) : (s.setReg r v).readMem d = s.readMem d := rfl
@[simp] theorem State.setPc_reg (s : State) (a : Addr) (q : RegNum) : (s.setPc a).reg q = s.reg q := rfl
@[simp] theorem State.setPc_sp (s : State) (a : Addr) : (s.setPc a).sp = s.sp := rfl
@[simp] theorem State.setPc_readMem (s : State) (a : Addr) (d : Addr) : (s.setPc a).readMem d = s.readMem d := rfl
@[simp] theorem State.setFlags_reg (s : State) (f : Flags) (q : RegNum) : (s.setFlags f).reg q = s.reg q := rfl
@[simp] theorem State.setFlags_sp (s : State) (f : Flags) : (s.setFlags f).sp = s.sp := rfl
@[simp] theorem State.setFlags_readMem (s : State) (f : Flags) (d : Addr) : (s.setFlags f).readMem d = s.readMem d := rfl
@[simp] theorem State.emit_reg (s : State) (v : Byte) (q : RegNum) : (s.emit v).reg q = s.reg q := rfl
@[simp] theorem State.emit_sp (s : State) (v : Byte) : (s.emit v).sp = s.sp := rfl
@[simp] theorem State.emit_readMem (s : State) (v : Byte) (d : Addr) : (s.emit v).readMem d = s.readMem d := rfl
@[simp] theorem State.halt_reg (s : State) (q : RegNum) : (s.halt).reg q = s.reg q := rfl
@[simp] theorem State.halt_sp (s : State) : (s.halt).sp = s.sp := rfl
@[simp] theorem State.halt_readMem (s : State) (d : Addr) : (s.halt).readMem d = s.readMem d := rfl
@[simp] theorem State.writeMem_reg (s : State) (a : Addr) (v : Byte) (q : RegNum) : (s.writeMem a v).reg q = s.reg q := rfl
@[simp] theorem State.writeMem_sp (s : State) (a : Addr) (v : Byte) : (s.writeMem a v).sp = s.sp := rfl
@[simp] theorem State.raise_reg (s : State) (c : FaultCause) (o : Byte) (q : RegNum) : (s.raise c o).reg q = s.reg q := rfl
@[simp] theorem State.raise_sp (s : State) (c : FaultCause) (o : Byte) : (s.raise c o).sp = s.sp := rfl
@[simp] theorem State.raise_readMem (s : State) (c : FaultCause) (o : Byte) (d : Addr) : (s.raise c o).readMem d = s.readMem d := rfl
@[simp] theorem State.decSp_readMem (s : State) (d : Addr) : (s.decSp).readMem d = s.readMem d := rfl
@[simp] theorem State.incSp_readMem (s : State) (d : Addr) : (s.incSp).readMem d = s.readMem d := rfl
@[simp] theorem State.storeTop_reg (s : State) (v : Byte) (q : RegNum) : (s.storeTop v).reg q = s.reg q := rfl
@[simp] theorem State.storeTop_sp (s : State) (v : Byte) : (s.storeTop v).sp = s.sp := rfl
@[simp] theorem State.load_reg (s : State) (a : Addr) (v : Byte) (q : RegNum) : (s.load a v).reg q = s.reg q := rfl
@[simp] theorem State.load_sp (s : State) (a : Addr) (v : Byte) : (s.load a v).sp = s.sp := rfl
@[simp] theorem State.placeImage_reg (s : State) (img : List Byte) (q : RegNum) : (s.placeImage img).reg q = s.reg q := rfl
@[simp] theorem State.placeImage_sp (s : State) (img : List Byte) : (s.placeImage img).sp = s.sp := rfl
@[simp] theorem State.start_reg (s : State) (q : RegNum) : (s.start).reg q = s.reg q := rfl
@[simp] theorem State.start_sp (s : State) : (s.start).sp = s.sp := rfl
@[simp] theorem State.start_readMem (s : State) (d : Addr) : (s.start).readMem d = s.readMem d := rfl
@[simp] theorem State.withFetchWord_reg (s : State) (nbits w : Nat) (q : RegNum) : (s.withFetchWord nbits w).reg q = s.reg q := rfl
@[simp] theorem State.withFetchWord_sp (s : State) (nbits w : Nat) : (s.withFetchWord nbits w).sp = s.sp := rfl

/-! ### Two states with the same fields are the same state -/

theorem State.eq_of_fields {s t : State} (hx : t.x = s.x) (hpc : t.pc = s.pc) (hf : t.flags = s.flags) (hm : t.mem = s.mem)
    (hr : t.rs = s.rs) (hk : t.fault = s.fault) (ho : t.out = s.out) : t = s := by
  cases s; cases t; simp_all

/-- Registers agree when every register reads the same. -/
theorem State.x_ext {s t : State} (h : ∀ r, t.reg r = s.reg r) : t.x = s.x := by
  apply Vector.ext
  intro i hi
  exact h ⟨i, hi⟩

end Sys2Proof.Machine
end

