-- ==== Sys2Proof/Laws/Exec.lean ====
section
/-! SUPPORT. Once per shared operation, everything it can do; and once for all instructions, everything `exec` can do: a
check fails and its fault is raised, or the instruction has its effect. -/

namespace Sys2Proof.Machine

/-! ### The checks -/

theorem checkFetch_ok {n : Nat} {s : State} (onward : State) (h : s.pc.toNat + n ≤ 255) :
    checkFetch n s onward = onward := if_neg (by omega)

theorem checkFetch_over {n : Nat} {s : State} (onward : State) (h : 255 < s.pc.toNat + n) :
    checkFetch n s onward = s.raise .fetchOverrun 0 := if_pos h

theorem withRegister_ok {r : Byte} {s : State} (onward : RegNum → State) (h : r.toNat < 8) :
    withRegister r s onward = onward ⟨r.toNat, h⟩ := dif_pos h

theorem withRegister_bad {r : Byte} {s : State} (onward : RegNum → State) (h : 7 < r.toNat) :
    withRegister r s onward = s.raise .invalidRegister r := dif_neg (by omega)

theorem withSuccessor_ok {len : Nat} {s : State} (onward : Addr → State) (h : s.pc.toNat + len ≤ 255) :
    withSuccessor len s onward = onward (BitVec.ofNat 8 (s.pc.toNat + len)) := if_neg (by omega)

theorem withSuccessor_over {len : Nat} {s : State} (onward : Addr → State) (h : 255 < s.pc.toNat + len) :
    withSuccessor len s onward = s.raise .pcOverrun 0 := if_pos h

/-- A check of an instruction's own has failed: its fault is raised and nothing else happened. -/
def CheckFailed (s t : State) : Prop :=
  ∃ c o, t = s.raise c o ∧
    ((c = .fetchOverrun ∧ o = 0) ∨ (c = .invalidRegister ∧ 7 < o.toNat) ∨ (c = .pcOverrun ∧ o = 0))

theorem checkFetch_cases (n : Nat) (s onward : State) :
    (s.pc.toNat + n ≤ 255 ∧ checkFetch n s onward = onward) ∨ CheckFailed s (checkFetch n s onward) := by
  by_cases h : s.pc.toNat + n ≤ 255
  · exact .inl ⟨h, checkFetch_ok _ h⟩
  · exact .inr ⟨_, _, checkFetch_over _ (by omega), .inl ⟨rfl, rfl⟩⟩

theorem withRegister_cases (r : Byte) (s : State) (onward : RegNum → State) :
    (∃ q : RegNum, q.val = r.toNat ∧ withRegister r s onward = onward q) ∨ CheckFailed s (withRegister r s onward) := by
  by_cases h : r.toNat < 8
  · exact .inl ⟨⟨r.toNat, h⟩, rfl, withRegister_ok _ h⟩
  · exact .inr ⟨_, _, withRegister_bad _ (by omega), .inr (.inl ⟨rfl, by omega⟩)⟩

theorem withSuccessor_cases (len : Nat) (s : State) (onward : Addr → State) :
    (∃ next : Addr, next.toNat = s.pc.toNat + len ∧ withSuccessor len s onward = onward next) ∨
      CheckFailed s (withSuccessor len s onward) := by
  by_cases h : s.pc.toNat + len ≤ 255
  · exact .inl ⟨_, by simp; omega, withSuccessor_ok _ h⟩
  · exact .inr ⟨_, _, withSuccessor_over _ (by omega), .inr (.inr ⟨rfl, rfl⟩)⟩

/-! ### The flags -/

@[simp] theorem compareFlags_e (va vb : Byte) : (compareFlags va vb).e = decide (va.toNat = vb.toNat) := rfl

@[simp] theorem compareFlags_l (va vb : Byte) : (compareFlags va vb).l = decide (va.toNat < vb.toNat) := rfl

@[simp] theorem compareFlags_g (va vb : Byte) : (compareFlags va vb).g = decide (va.toNat > vb.toNat) := rfl

/-! ### What an instruction can do -/

/-- The instruction's own effect, from `s` to `t`, when all its checks pass. -/
def Effect (s t : State) : Instr → Prop
  | .hlt => t = s.halt
  | .ldi a imm => ∃ (ra : RegNum) (next : Addr), ra.val = a.toNat ∧ next.toNat = s.pc.toNat + 3 ∧
      t = (s.setReg ra imm).setPc next
  | .prn a => ∃ (ra : RegNum) (next : Addr), ra.val = a.toNat ∧ next.toNat = s.pc.toNat + 2 ∧
      t = (s.emit (s.reg ra)).setPc next
  | .mul a b => ∃ (ra rb : RegNum) (next : Addr), ra.val = a.toNat ∧ rb.val = b.toNat ∧
      next.toNat = s.pc.toNat + 3 ∧
      t = (s.setReg ra (BitVec.ofNat 8 ((s.reg ra).toNat * (s.reg rb).toNat))).setPc next
  | .add a b => ∃ (ra rb : RegNum) (next : Addr), ra.val = a.toNat ∧ rb.val = b.toNat ∧
      next.toNat = s.pc.toNat + 3 ∧
      t = (s.setReg ra (BitVec.ofNat 8 ((s.reg ra).toNat + (s.reg rb).toNat))).setPc next
  | .cmp a b => ∃ (ra rb : RegNum) (next : Addr), ra.val = a.toNat ∧ rb.val = b.toNat ∧
      next.toNat = s.pc.toNat + 3 ∧ t = (s.setFlags (compareFlags (s.reg ra) (s.reg rb))).setPc next
  | .push a => ∃ (ra : RegNum) (next : Addr), ra.val = a.toNat ∧ next.toNat = s.pc.toNat + 2 ∧
      t = (s.decSp.storeTop (s.decSp.reg ra)).setPc next
  | .pop a => ∃ (ra : RegNum) (next : Addr), ra.val = a.toNat ∧ next.toNat = s.pc.toNat + 2 ∧
      t = ((s.setReg ra s.loadTop).incSp).setPc next
  | .call a => ∃ (ra : RegNum) (next : Addr), ra.val = a.toNat ∧ next.toNat = s.pc.toNat + 2 ∧
      t = (s.decSp.storeTop next).setPc (s.decSp.reg ra)
  | .ret => t = s.incSp.setPc s.loadTop
  | .jeq a => ∃ ra : RegNum, ra.val = a.toNat ∧
      ((s.flags.e = true ∧ t = s.setPc (s.reg ra)) ∨
       (s.flags.e = false ∧ ∃ next : Addr, next.toNat = s.pc.toNat + 2 ∧ t = s.setPc next))
  | .jne a => ∃ ra : RegNum, ra.val = a.toNat ∧
      ((s.flags.e = false ∧ t = s.setPc (s.reg ra)) ∨
       (s.flags.e = true ∧ ∃ next : Addr, next.toNat = s.pc.toNat + 2 ∧ t = s.setPc next))
  | .jmp a => ∃ ra : RegNum, ra.val = a.toNat ∧ t = s.setPc (s.reg ra)

/-- The course of the format-R instructions that use the successor. -/
theorem oneRegister_cases (a : Byte) (s : State) (f : RegNum → Addr → State) :
    CheckFailed s (checkFetch 1 s <| withRegister a s fun ra => withSuccessor 2 s (f ra)) ∨
      ∃ (ra : RegNum) (next : Addr), ra.val = a.toNat ∧ next.toNat = s.pc.toNat + 2 ∧
        (checkFetch 1 s <| withRegister a s fun ra => withSuccessor 2 s (f ra)) = f ra next := by
  obtain ⟨-, h⟩ | h := checkFetch_cases 1 s (withRegister a s fun ra => withSuccessor 2 s (f ra))
  · rw [h]
    obtain ⟨ra, hra, h⟩ | h := withRegister_cases a s fun ra => withSuccessor 2 s (f ra)
    · rw [h]
      obtain ⟨next, hn, h⟩ | h := withSuccessor_cases 2 s (f ra)
      · exact .inr ⟨ra, next, hra, hn, h⟩
      · exact .inl h
    · exact .inl h
  · exact .inl h

/-- The course of LDI. -/
theorem registerImmediate_cases (a : Byte) (s : State) (f : RegNum → Addr → State) :
    CheckFailed s (checkFetch 2 s <| withRegister a s fun ra => withSuccessor 3 s (f ra)) ∨
      ∃ (ra : RegNum) (next : Addr), ra.val = a.toNat ∧ next.toNat = s.pc.toNat + 3 ∧
        (checkFetch 2 s <| withRegister a s fun ra => withSuccessor 3 s (f ra)) = f ra next := by
  obtain ⟨-, h⟩ | h := checkFetch_cases 2 s (withRegister a s fun ra => withSuccessor 3 s (f ra))
  · rw [h]
    obtain ⟨ra, hra, h⟩ | h := withRegister_cases a s fun ra => withSuccessor 3 s (f ra)
    · rw [h]
      obtain ⟨next, hn, h⟩ | h := withSuccessor_cases 3 s (f ra)
      · exact .inr ⟨ra, next, hra, hn, h⟩
      · exact .inl h
    · exact .inl h
  · exact .inl h

/-- The course of the ALU instructions. -/
theorem aluInstruction_cases (op : AluOp) (a b : Byte) (s : State) :
    CheckFailed s (aluInstruction op a b s) ∨
      ∃ (ra rb : RegNum) (next : Addr), ra.val = a.toNat ∧ rb.val = b.toNat ∧ next.toNat = s.pc.toNat + 3 ∧
        aluInstruction op a b s = (s.writeAlu ra (alu op (s.reg ra) (s.reg rb))).setPc next := by
  unfold aluInstruction
  obtain ⟨-, h⟩ | h := checkFetch_cases 2 s (withRegister a s fun ra => withRegister b s fun rb =>
    withSuccessor 3 s fun next => (s.writeAlu ra (alu op (s.reg ra) (s.reg rb))).setPc next)
  · rw [h]
    obtain ⟨ra, hra, h⟩ | h := withRegister_cases a s fun ra => withRegister b s fun rb =>
      withSuccessor 3 s fun next => (s.writeAlu ra (alu op (s.reg ra) (s.reg rb))).setPc next
    · rw [h]
      obtain ⟨rb, hrb, h⟩ | h := withRegister_cases b s fun rb =>
        withSuccessor 3 s fun next => (s.writeAlu ra (alu op (s.reg ra) (s.reg rb))).setPc next
      · rw [h]
        obtain ⟨next, hn, h⟩ | h := withSuccessor_cases 3 s fun next =>
          (s.writeAlu ra (alu op (s.reg ra) (s.reg rb))).setPc next
        · exact .inr ⟨ra, rb, next, hra, hrb, hn, h⟩
        · exact .inl h
      · exact .inl h
    · exact .inl h
  · exact .inl h

/-- The course of JEQ and JNE. -/
theorem conditionalJump_cases (taken : Bool) (a : Byte) (s : State) :
    CheckFailed s (conditionalJump taken a s) ∨
      ∃ ra : RegNum, ra.val = a.toNat ∧
        ((taken = true ∧ conditionalJump taken a s = s.setPc (s.reg ra)) ∨
         (taken = false ∧ ∃ next : Addr, next.toNat = s.pc.toNat + 2 ∧ conditionalJump taken a s = s.setPc next)) := by
  unfold conditionalJump
  obtain ⟨-, h⟩ | h := checkFetch_cases 1 s (withRegister a s fun ra =>
    if taken then s.setPc (s.reg ra) else withSuccessor 2 s fun next => s.setPc next)
  · rw [h]
    obtain ⟨ra, hra, h⟩ | h := withRegister_cases a s fun ra =>
      if taken then s.setPc (s.reg ra) else withSuccessor 2 s fun next => s.setPc next
    · rw [h]
      cases taken with
      | true => exact .inr ⟨ra, hra, .inl ⟨rfl, rfl⟩⟩
      | false =>
        obtain ⟨next, hn, h⟩ | h := withSuccessor_cases 2 s fun next => s.setPc next
        · exact .inr ⟨ra, hra, .inr ⟨rfl, next, hn, h⟩⟩
        · exact .inl h
    · exact .inl h
  · exact .inl h

/-- Everything `exec` can do with a next state. -/
theorem exec_cases {i : Instr} {s t : State} (h : exec i s = .next t) : CheckFailed s t ∨ Effect s t i := by
  cases i <;> cases h
  case hlt => exact .inr rfl
  case ldi a imm => exact (registerImmediate_cases a s _).imp_right fun h => h
  case prn a => exact (oneRegister_cases a s _).imp_right fun h => h
  case mul a b => exact (aluInstruction_cases .mul a b s).imp_right fun h => h
  case add a b => exact (aluInstruction_cases .add a b s).imp_right fun h => h
  case cmp a b => exact (aluInstruction_cases .cmp a b s).imp_right fun h => h
  case push a => exact (oneRegister_cases a s _).imp_right fun h => h
  case pop a => exact (oneRegister_cases a s _).imp_right fun h => h
  case call a => exact (oneRegister_cases a s _).imp_right fun h => h
  case ret => exact .inr rfl
  case jeq a => exact (conditionalJump_cases s.flags.e a s).imp_right fun h => h
  case jne a =>
    refine (conditionalJump_cases (!s.flags.e) a s).imp_right fun ⟨ra, hra, h⟩ => ⟨ra, hra, ?_⟩
    exact h.imp (fun ⟨e, h⟩ => ⟨by simpa using e, h⟩) (fun ⟨e, h⟩ => ⟨by simpa using e, h⟩)
  case jmp a =>
    obtain ⟨-, h⟩ | h := checkFetch_cases 1 s (withRegister a s fun ra => s.setPc (s.reg ra))
    · obtain ⟨ra, hra, h'⟩ | h' := withRegister_cases a s fun ra => s.setPc (s.reg ra)
      · exact .inr ⟨ra, hra, h.trans h'⟩
      · exact .inl (by rw [h]; exact h')
    · exact .inl h

/-- `exec` answers a next state for every instruction and state: no arm stops. -/
theorem exec_next (i : Instr) (s : State) : ∃ t, exec i s = .next t := by
  cases i <;> exact ⟨_, rfl⟩

end Sys2Proof.Machine
end

