-- ==== Sys2Proof/Laws/PerInstr.lean ====
section
/-! SUPPORT. Statements made per instruction: the bytes of each instruction decode back to it, whatever follows. -/

namespace Sys2Proof.Laws

/-- The instruction's bytes, followed by any others, decode to it and leave the others. -/
def RoundTrip.Statement (i : Instr) : Prop := ∀ rest, decode (encode i ++ rest) = .ok (i, rest)

theorem RoundTrip.hlt : RoundTrip.Statement .hlt := decode_hlt
theorem RoundTrip.ldi (a imm : Byte) : RoundTrip.Statement (.ldi a imm) := decode_ldi a imm
theorem RoundTrip.prn (a : Byte) : RoundTrip.Statement (.prn a) := decode_prn a
theorem RoundTrip.mul (a b : Byte) : RoundTrip.Statement (.mul a b) := decode_mul a b
theorem RoundTrip.add (a b : Byte) : RoundTrip.Statement (.add a b) := decode_add a b
theorem RoundTrip.cmp (a b : Byte) : RoundTrip.Statement (.cmp a b) := decode_cmp a b
theorem RoundTrip.push (a : Byte) : RoundTrip.Statement (.push a) := decode_push a
theorem RoundTrip.pop (a : Byte) : RoundTrip.Statement (.pop a) := decode_pop a
theorem RoundTrip.call (a : Byte) : RoundTrip.Statement (.call a) := decode_call a
theorem RoundTrip.ret : RoundTrip.Statement .ret := decode_ret
theorem RoundTrip.jeq (a : Byte) : RoundTrip.Statement (.jeq a) := decode_jeq a
theorem RoundTrip.jne (a : Byte) : RoundTrip.Statement (.jne a) := decode_jne a
theorem RoundTrip.jmp (a : Byte) : RoundTrip.Statement (.jmp a) := decode_jmp a

end Sys2Proof.Laws
end

