-- ==== Sys2Proof/Laws/Step.lean ====
section
/-! SUPPORT. Once for the step, everything it can do. -/

namespace Sys2Proof.Machine

theorem step_running {s : State} (h : s.rs = .running) : step s = cycle s := by simp [step, h]

theorem step_halted {s : State} (h : s.rs = .halted) : step s = .fault .machineHalted := by simp [step, h]

theorem step_faulted {s : State} (h : s.rs = .faulted) : step s = .fault .machineFaulted := by simp [step, h]

/-- The opcode byte is always there and stands first. -/
theorem State.fetchWindow_eq (s : State) :
    s.fetchWindow = s.readMem s.pc :: s.mem.readFrom (s.pc.toNat + 1) 2 := by
  have h : s.pc.toNat < Config.memSize := s.pc.isLt
  simp [State.fetchWindow, Config.maxInstrBytes, Memory.readFrom, h, State.readMem]

/-- Everything a step can do with a next state. -/
theorem step_cases {s t : State} (h : step s = .next t) :
    s.rs = .running ∧
      ((∃ i rest, decode s.fetchWindow = .ok (i, rest) ∧ exec i s = .next t) ∨
       (∃ e, decode s.fetchWindow = .error e ∧ t = decodeFault e s)) := by
  cases hr : s.rs with
  | running =>
    refine ⟨rfl, ?_⟩
    rw [step_running hr, cycle] at h
    split at h
    · next i rest hd => exact .inl ⟨i, rest, hd, h⟩
    · next e hd =>
      cases h
      exact .inr ⟨e, hd, rfl⟩
  | halted => rw [step_halted hr] at h; cases h
  | faulted => rw [step_faulted hr] at h; cases h

end Sys2Proof.Machine
end

