-- ==== Sys2Proof/Laws/Session.lean ====
section
/-! SUPPORT. What each event does in each phase, and once for a move everything it can do. -/

namespace Sys2Proof.Machine

section
variable (spReset memFill a v : Byte) (s t : State) (h : Session)

@[simp] theorem Session.event_reset :
    h.event spReset memFill .reset = some ⟨.loading, State.resetWith spReset memFill⟩ := rfl
@[simp] theorem Session.event_load_loading :
    Session.event spReset memFill (.load a v) ⟨.loading, s⟩ = some ⟨.loading, s.load a v⟩ := rfl
@[simp] theorem Session.event_load_started : Session.event spReset memFill (.load a v) ⟨.started, s⟩ = none := rfl
@[simp] theorem Session.event_start_loading : Session.event spReset memFill .start ⟨.loading, s⟩ = some ⟨.started, s.start⟩ := rfl
@[simp] theorem Session.event_start_started : Session.event spReset memFill .start ⟨.started, s⟩ = none := rfl
@[simp] theorem Session.advance_loading : Session.advance ⟨.loading, s⟩ = none := rfl
@[simp] theorem Session.move_host (e : HostEvent) : h.move spReset memFill (.host e) = h.event spReset memFill e := rfl
@[simp] theorem Session.move_cycle : h.move spReset memFill .cycle = h.advance := rfl

theorem Session.advance_started {s t : State} (hs : step s = .next t) : Session.advance ⟨.started, s⟩ = some ⟨.started, t⟩ := by
  simp [Session.advance, hs]
end

/-- Everything a move can do. -/
theorem Session.move_cases {spReset memFill : Byte} {m : Move} {h k : Session} (hm : h.move spReset memFill m = some k) :
    (m = .host .reset ∧ k = ⟨.loading, State.resetWith spReset memFill⟩) ∨
    (∃ a v, m = .host (.load a v) ∧ h.phase = .loading ∧ k = ⟨.loading, h.core.load a v⟩) ∨
    (m = .host .start ∧ h.phase = .loading ∧ k = ⟨.started, h.core.start⟩) ∨
    (m = .cycle ∧ h.phase = .started ∧ k.phase = .started ∧ step h.core = .next k.core) := by
  obtain ⟨p, s⟩ := h
  match m, p with
  | .host .reset, _ => exact .inl ⟨rfl, (Option.some.inj hm).symm⟩
  | .host (.load a v), .loading => exact .inr (.inl ⟨a, v, rfl, rfl, (Option.some.inj hm).symm⟩)
  | .host .start, .loading => exact .inr (.inr (.inl ⟨rfl, rfl, (Option.some.inj hm).symm⟩))
  | .cycle, .started =>
    simp only [Session.move_cycle, Session.advance] at hm
    split at hm
    · next t hs => cases hm; exact .inr (.inr (.inr ⟨rfl, rfl, rfl, hs⟩))
    · cases hm

/-- Moves one after another: the first may happen, and the rest from where it led. -/
theorem Session.moves_cons {spReset memFill : Byte} {m : Move} {ms : List Move} {h k : Session} :
    h.moves spReset memFill (m :: ms) = some k ↔
      ∃ j, h.move spReset memFill m = some j ∧ j.moves spReset memFill ms = some k := by
  simp [Session.moves, Option.bind_eq_some_iff]

theorem Session.moves_append {spReset memFill : Byte} {ms ns : List Move} {h : Session} :
    h.moves spReset memFill (ms ++ ns) = (h.moves spReset memFill ms).bind (Session.moves spReset memFill ns) := by
  induction ms generalizing h with
  | nil => rfl
  | cons m ms ih => cases hm : h.move spReset memFill m <;> simp [Session.moves, hm, ih]

end Sys2Proof.Machine
end

