-- ==== Sys2Proof/Tests/Slice0.lean ====
section
/-! SUPPORT. The model's own tests: the words of the opcode table written out bit by bit, ill-formed instructions, one
step on a small state with the result the spec's vectors V<n> give (`95_test_vectors.md`, derived there from the rules and
marked UNVERIFIED by any run), and a witness for every statement that has hypotheses. -/

open Sys2Proof Sys2Proof.Machine

/-- The launch state with `bytes` at `p` and `pc` at `p` (the convention of `95_test_vectors.md`). -/
def Sys2Proof.Test.at (p : Addr) (bytes : List Byte) : State :=
  { State.reset with pc := p, mem := Memory.writeFrom [] p.toNat bytes }

/-- One step, if it answers a next state. -/
def Sys2Proof.Test.after (s : State) : Option State :=
  match step s with
  | .next t => some t
  | _ => none

/-- A field of the state after one step. -/
def Sys2Proof.Test.look {α : Type} (s : State) (f : State → α) : Option α := (Test.after s).map f

/-- Run state and fault record as a vector lists them: cause code, address, opcode, operand. -/
def Sys2Proof.Test.record (s : State) : RunState × Nat × Addr × Byte × Byte :=
  (s.rs, s.fault.cause.code, s.fault.addr, s.fault.ir, s.fault.operand)

/-! ### Decoding: one word of every row, from R76 and R71 -/

theorem test_decode_hlt : decodeTableWord 8 0b00000001 = some .hlt := by decide
theorem test_decode_ldi : decodeTableWord 24 0b11111111_00000011_10000010 = some (.ldi 3 255) := by decide
theorem test_decode_prn : decodeTableWord 16 0b00000101_01000111 = some (.prn 5) := by decide
theorem test_decode_mul : decodeTableWord 24 0b00000001_00000110_10100010 = some (.mul 6 1) := by decide
theorem test_decode_add : decodeTableWord 24 0b00000010_00000001_10100000 = some (.add 1 2) := by decide
theorem test_decode_cmp : decodeTableWord 24 0b00000011_00000001_10100111 = some (.cmp 1 3) := by decide
theorem test_decode_push : decodeTableWord 16 0b00000111_01000101 = some (.push 7) := by decide
theorem test_decode_pop : decodeTableWord 16 0b00000010_01000110 = some (.pop 2) := by decide
theorem test_decode_call : decodeTableWord 16 0b00000001_01010000 = some (.call 1) := by decide
theorem test_decode_ret : decodeTableWord 8 0b00010001 = some .ret := by decide
theorem test_decode_jeq : decodeTableWord 16 0b00000010_01010101 = some (.jeq 2) := by decide
theorem test_decode_jne : decodeTableWord 16 0b00000100_01010110 = some (.jne 4) := by decide
theorem test_decode_jmp : decodeTableWord 16 0b00000011_01010100 = some (.jmp 3) := by decide

/-- Operand words the table gives no bits read as zero. -/
theorem test_decode_short_word : decodeTableWord 8 0b10000010 = some (.ldi 0 0) := by decide

/-- Neighbours of HLT, RET and MUL, the zero byte and a subtract of other descriptions are illegal (V59 to V62). -/
theorem test_decode_illegal :
    [0x00, 0x02, 0x10, 0xA1, 0xA3, 0xFF].map (decodeTableWord 24) = List.replicate 6 none := by decide

/-- A missing operand byte is a truncated instruction and not an illegal one. -/
theorem test_decode_truncated : decode [0x82, 0x00] = .error .truncated ∧ decode [0x47] = .error .truncated := ⟨rfl, rfl⟩

/-- The row's instruction runs as the first one after reset. -/
theorem test_fetch_word : step (State.reset.withFetchWord 24 0x080082) = exec (.ldi 0 8) (State.reset.withFetchWord 24 0x080082) := rfl

/-! ### Well-formedness: one ill-formed term for each operand that is checked (R74, R169) -/

theorem test_illformed_one_register :
    [Instr.prn 8, .push 16, .pop 255, .call 8, .jeq 8, .jne 9, .jmp 128].map Instr.wellFormed = List.replicate 7 false := by decide
theorem test_illformed_first_register :
    [Instr.ldi 8 0, .mul 9 0, .add 9 8, .cmp 8 0].map Instr.wellFormed = List.replicate 4 false := by decide
theorem test_illformed_second_register :
    [Instr.mul 0 8, .add 0 8, .cmp 0 255].map Instr.wellFormed = List.replicate 3 false := by decide
theorem test_wellformed :
    [Instr.hlt, .ldi 7 255, .prn 7, .mul 7 0, .add 0 7, .cmp 7 7, .push 7, .pop 0, .call 7, .ret, .jeq 7, .jne 7, .jmp 7].map
      Instr.wellFormed = List.replicate 13 true := by decide

/-! ### One step of each instruction -/

/-- V57. -/
theorem test_hlt : Test.after (Test.at 0x0B [0x01]) = some { Test.at 0x0B [0x01] with rs := .halted } := by rfl
/-- V58. -/
theorem test_hlt_at_top : Test.look (Test.at 0xFF [0x01]) (fun t => (t.rs, t.pc)) = some (.halted, 0xFF) := by rfl
/-- V31, V33: an immediate above 7 is no register. -/
theorem test_ldi : Test.look (Test.at 0x20 [0x82, 0x03, 0xFF]) (fun t => (t.reg 3, t.pc)) = some (0xFF, 0x23) := by rfl
/-- V67: InvalidRegister before PcOverrun. -/
theorem test_ldi_priority : Test.look (Test.at 0xFD [0x82, 0x09, 0x00]) Test.record = some (.faulted, 3, 0xFD, 0x82, 0x09) := by rfl
/-- V34. -/
theorem test_prn : Test.look ((Test.at 0x20 [0x47, 0x05]).setReg 5 0xFF) (fun t => (t.out, t.pc)) = some ([255], 0x22) := by rfl
/-- V69: nothing is output. -/
theorem test_prn_pc_overrun : Test.look ((Test.at 0xFE [0x47, 0x00]).setReg 0 7) (fun t => (Test.record t, t.out)) =
    some ((.faulted, 4, 0xFE, 0x47, 0), []) := by rfl
/-- V13. -/
theorem test_mul : Test.look (((Test.at 0x10 [0xA2, 0x00, 0x01]).setReg 0 0xFF).setReg 1 0xFF) (fun t => (t.reg 0, t.reg 1, t.pc)) =
    some (0x01, 0xFF, 0x13) := by rfl
/-- V30: a zero product sets no flag. -/
theorem test_mul_flags : Test.look { ((Test.at 0x10 [0xA2, 0x00, 0x01]).setReg 0 0x10).setReg 1 0x10 with
    flags := ⟨false, true, false⟩ } (fun t => (t.reg 0, t.flags)) = some (0x00, ⟨false, true, false⟩) := by rfl
/-- V5. -/
theorem test_add : Test.look (((Test.at 0x10 [0xA0, 0x00, 0x01]).setReg 0 0xC8).setReg 1 0x64) (fun t => (t.reg 0, t.reg 1)) =
    some (0x2C, 0x64) := by rfl
/-- V81: both registers bad, the first is reported. -/
theorem test_add_invalid : Test.look (Test.at 0x20 [0xA0, 0x09, 0x08]) Test.record = some (.faulted, 3, 0x20, 0xA0, 0x09) := by rfl
/-- V24: the comparison is unsigned. -/
theorem test_cmp : Test.look (((Test.at 0x10 [0xA7, 0x00, 0x01]).setReg 0 0x80).setReg 1 0x7F) (fun t => (t.flags, t.pc)) =
    some (⟨false, false, true⟩, 0x13) := by rfl
/-- V27: the old flag is cleared. -/
theorem test_cmp_rewrites : Test.look { Test.at 0x10 [0xA7, 0x00, 0x01] with flags := ⟨false, false, true⟩ } (fun t => t.flags) =
    some ⟨true, false, false⟩ := by rfl
/-- V36: the stack pointer wraps and the first push lands at 255. -/
theorem test_push : Test.look ((Test.at 0x20 [0x45, 0x01]).setReg 1 0x2A) (fun t => (t.reg 7, t.readMem 0xFF, t.pc)) =
    some (0xFF, 0x2A, 0x22) := by rfl
/-- V38. -/
theorem test_push_sp : Test.look (Test.at 0x20 [0x45, 0x07]) (fun t => (t.reg 7, t.readMem 0xFF)) = some (0xFF, 0xFF) := by rfl
/-- V41: the popped byte stays. -/
theorem test_pop : Test.look (((Test.at 0x20 [0x46, 0x02]).setReg 7 0xFF).writeMem 0xFF 0x2A)
    (fun t => (t.reg 2, t.reg 7, t.readMem 0xFF)) = some (0x2A, 0x00, 0x2A) := by rfl
/-- V42. -/
theorem test_pop_sp : Test.look (((Test.at 0x20 [0x46, 0x07]).setReg 7 0xFE).writeMem 0xFE 0x10) (fun t => t.reg 7) = some 0x11 := by rfl
/-- V45: the target is read after the push. -/
theorem test_call_sp : Test.look (Test.at 0x06 [0x50, 0x07]) (fun t => (t.reg 7, t.readMem 0xFF, t.pc)) = some (0xFF, 0x08, 0xFF) := by rfl
/-- V77: nothing is pushed. -/
theorem test_call_pc_overrun : Test.look (((Test.at 0xFE [0x50, 0x00]).setReg 0 0x10).setReg 7 0x80)
    (fun t => (Test.record t, t.reg 7, t.readMem 0x7F)) = some ((.faulted, 4, 0xFE, 0x50, 0), 0x80, 0) := by rfl
/-- V48. -/
theorem test_ret : Test.look (((Test.at 0xFF [0x11]).setReg 7 0x10).writeMem 0x10 0x77) (fun t => (t.reg 7, t.pc)) = some (0x11, 0x77) := by rfl
/-- V49: it pops its own opcode. -/
theorem test_ret_first : Test.look (Test.at 0x00 [0x11]) (fun t => (t.reg 7, t.pc)) = some (0x01, 0x11) := by rfl
/-- V73: taken at 254. -/
theorem test_jeq : Test.look { (Test.at 0xFE [0x55, 0x00]).setReg 0 0x10 with flags := ⟨true, false, false⟩ }
    (fun t => (t.rs, t.pc)) = some (.running, 0x10) := by rfl
/-- V83: the register is checked although the jump is not taken. -/
theorem test_jeq_invalid : Test.look (Test.at 0x20 [0x55, 0x08]) Test.record = some (.faulted, 3, 0x20, 0x55, 0x08) := by rfl
/-- V54: taken before any CMP. -/
theorem test_jne : Test.look ((Test.at 0x20 [0x56, 0x04]).setReg 4 0x0F) (fun t => t.pc) = some 0x0F := by rfl
/-- V76: not taken at 254. -/
theorem test_jne_pc_overrun : Test.look { (Test.at 0xFE [0x56, 0x00]).setReg 0 0x10 with flags := ⟨true, false, false⟩ }
    Test.record = some (.faulted, 4, 0xFE, 0x56, 0) := by rfl
/-- V71: JMP at 254. -/
theorem test_jmp : Test.look ((Test.at 0xFE [0x54, 0x00]).setReg 0 0x10) (fun t => (t.rs, t.pc)) = some (.running, 0x10) := by rfl
/-- V72. -/
theorem test_jmp_fetch_overrun : Test.look (Test.at 0xFF [0x54]) Test.record = some (.faulted, 2, 0xFF, 0x54, 0) := by rfl
/-- V61: no subtract exists. -/
theorem test_illegal_opcode : Test.look (Test.at 0x10 [0xA1, 0x00, 0x01]) Test.record = some (.faulted, 1, 0x10, 0xA1, 0) := by rfl

/-! ### The loader's text and the rendering of the output -/

/-- X9: both files give the same bytes. -/
theorem test_load_text :
    loadImage (some ["# scenario 1".toList, "10000010 # LDI r0 8".toList, "00000000".toList, "".toList, " 00001000".toList]) = .ok [0x82, 0, 8] ∧
    loadImage (some ["10000010".toList, "00000000".toList, "00001000".toList]) = .ok [0x82, 0, 8] := ⟨by rfl, by rfl⟩
theorem test_load_malformed : loadImage (some ["00000001".toList, "0x82".toList]) = .error .malformedLine := by rfl
theorem test_load_too_large : loadImage (some ["100000000".toList]) = .error .valueTooLarge := by rfl
theorem test_load_long_literal : loadImage (some ["0000000011".toList]) = .ok [3] := by rfl
/-- R205: no leading zeros. -/
theorem test_console : State.console { State.reset with out := [72, 0, 255] } = ["72".toList, "0".toList, "255".toList] := by rfl
/-- The ports of a faulted machine (R203). -/
theorem test_ports : (Test.after (Test.at 0x05 [])).map (fun t => (t.haltedPort, t.faultedPort, t.faultPort)) =
    some (false, true, some (1, 0x05, 0x00, 0x00)) := by rfl

/-- A listing in the notation of R82 with a label and a comment, and the bytes R82's table gives it. -/
theorem test_assemble : assemble ["LDI r0 8 ; eight".toList, "loop: JNE r4".toList, "LDI r4 loop".toList, "LDI r1 0x2A".toList,
    "LDI r2 0b101".toList, "HLT".toList] = some [0x82, 0, 8, 0x56, 4, 0x82, 4, 3, 0x82, 1, 0x2A, 0x82, 2, 5, 0x01] := by decide
theorem test_assemble_refuses :
    ["LDI r8 0", "LDI r0 256", "SUB r0 r1", "ADD r0", "PRN 5", "LDI r0 nowhere"].map (fun l => assemble [l.toList]) =
      List.replicate 6 none := by decide

/-! ### Witnesses: concrete states and operands that meet the hypotheses of the statements, clause by clause -/

/-- The premises of the three fault clauses of `Expect.checks` at the edges of their ranges: `beyond` is the lowest `pc` whose
operand bytes do not fit, `edge` the highest whose do; `bad` holds a byte above 7, `good` none. -/
abbrev Sys2Proof.Test.ChecksMet (n : Nat) (good bad : List Byte) (beyond edge : State) : Prop :=
  beyond.pc.toNat + n = 256 ∧ edge.pc.toNat + n = 255 ∧ (bad.find? (fun q => decide (7 < q.toNat))).isSome ∧
  (∀ r ∈ good, r.toNat ≤ 7)

/-- An instruction answers a next state that satisfies a check. -/
def Sys2Proof.Test.answers (i : Instr) (s : State) (p : State → Bool) : Bool :=
  match exec i s with
  | .next t => p t
  | _ => false

theorem test_witness_OpcodeTableWords : decode [0x11, 0xFF] = .ok (.ret, [0xFF]) := rfl

theorem test_witness_DecodeInvertsEncodeExactly :
    decode [0x82, 0xFF, 0x08, 0x01] = .ok (.ldi 0xFF 0x08, [0x01]) ∧ [0x82, 0xFF, 0x08, 0x01] = encode (.ldi 0xFF 0x08) ++ [0x01] := ⟨rfl, rfl⟩

theorem test_witness_DecodingIsTotalAndUnambiguous :
    decode [0x83, 0x00] = .error .illegalOpcode ∧ decode [0x47, 0x07] = .ok (.prn 7, []) ∧
      decode [0x47, 0xFF, 0x01] = .ok (.prn 0xFF, [0x01]) := ⟨rfl, rfl, rfl⟩

theorem test_witness_LengthIsDecidedByOpcodeAlone :
    ∃ row ∈ opcodeTable, row.opcode = 0xA0 ∧ row.operands = 2 ∧ decode [0xA0, 0x01, 0x02] = .ok (.add 1 2, []) :=
  ⟨⟨0xA0, "ADD", 2, fun a b => .add a b⟩, by simp [opcodeTable], rfl, rfl, rfl⟩

theorem test_witness_AssemblyStandsForItsBytes : (Instr.ldi 7 255).wellFormed = true ∧ Instr.ret.wellFormed = true ∧
    (7 : Byte).toNat ≤ 7 ∧ ((List.replicate 85 (Instr.ldi 7 255)).flatMap encode).length = 255 :=
  ⟨rfl, rfl, by decide, by rw [List.length_flatMap, List.map_replicate, List.sum_replicate]; rfl⟩

theorem test_witness_StepRunsDecodedInstruction : (Test.at 0xFD [0x82, 0x00, 0x05]).rs = .running ∧
    decode (Test.at 0xFD [0x82, 0x00, 0x05]).fetchWindow = .ok (.ldi 0 5, []) := ⟨rfl, rfl⟩

theorem test_witness_StepRunsTheBytesAtPc : (Test.at 0xFE [0x54, 0x00]).rs = .running ∧
    Expect.bytesAtPc (.jmp 0) (Test.at 0xFE [0x54, 0x00]) := by
  refine ⟨rfl, fun k b h => ?_⟩
  rcases k with _ | _ | k
  · cases h; decide
  · cases h; decide
  · cases h

theorem test_witness_StoredByteIsFetchedByNextCycle :
    (Test.at 0xFF []).pc.toNat + 0 ≤ 255 ∧
    (∃ t, exec (.push 7) ((Test.at 0x20 []).setReg 7 0x23) = .next t ∧ t.pc.toNat + 0 = ((Test.at 0x20 []).setReg 7 0x23).decSp.sp.toNat ∧
      t.rs = .running) ∧
    (∃ t, exec (.call 1) (((Test.at 0x20 []).setReg 7 0x23).setReg 1 0x20) = .next t ∧
      t.pc.toNat + 2 = (((Test.at 0x20 []).setReg 7 0x23).setReg 1 0x20).decSp.sp.toNat ∧ t.rs = .running) :=
  ⟨by decide, ⟨_, rfl, rfl, rfl⟩, ⟨_, rfl, rfl, rfl⟩⟩

theorem test_witness_StepOutcomes : (Test.at 0xFF [0x01]).rs = .running ∧
    Test.look (Test.at 0xFF [0x01]) (fun t => t.rs) = some .halted ∧ Test.look (Test.at 0xFF []) (fun t => t.rs) = some .faulted ∧
    Test.look (Test.at 0xFC [0x82]) (fun t => t.rs) = some .running ∧
    ((Test.at 0x20 [0x54, 0x03]).setReg 3 0x20).reg 3 = ((Test.at 0x20 [0x54, 0x03]).setReg 3 0x20).pc := ⟨rfl, rfl, rfl, rfl, rfl⟩

/-- V56. -/
theorem test_witness_StepOutcomes_loop : Expect.bytesAtPc (.jmp 3) ((Test.at 0x20 [0x54, 0x03]).setReg 3 0x20) := by
  intro k b h
  rcases k with _ | _ | k
  · cases h; decide
  · cases h; decide
  · cases h

theorem test_witness_StoppedMachineTakesNoStep : (State.reset.halt).rs = .halted ∧ (State.reset.raise .illegalOpcode 0).rs = .faulted :=
  ⟨rfl, rfl⟩

/-- One witness for each clause: a fault, HLT, fall-through at both edges, CALL, RET, and the three taken jumps at 254. -/
theorem test_witness_PcIsWrittenOnce :
    Test.answers (.ldi 8 0) (Test.at 0xFD []) (fun t => decide (t.rs = .faulted)) ∧
    Test.answers .hlt (Test.at 0xFF []) (fun t => decide (t.rs = .halted)) ∧
    Test.answers (.ldi 0 0) (Test.at 0xFC []) (fun t => decide (t.rs = .running)) ∧
    Test.answers (.jne 0) { Test.at 0xFD [] with flags := ⟨true, false, false⟩ } (fun t => decide (t.rs = .running)) ∧
    Test.answers (.call 7) (Test.at 0xFD []) (fun t => decide (t.rs = .running)) ∧
    Test.answers .ret (Test.at 0xFF []) (fun t => decide (t.rs = .running)) ∧
    Test.answers (.jmp 7) (Test.at 0xFE []) (fun t => decide (t.rs = .running)) ∧
    Test.answers (.jeq 0) { Test.at 0xFE [] with flags := ⟨true, false, false⟩ } (fun t => decide (t.rs = .running)) ∧
    Test.answers (.jne 0) (Test.at 0xFE []) (fun t => decide (t.rs = .running)) := by decide

theorem test_witness_IllegalOpcodeIsFatal : (Test.at 0xFF [0x02]).rs = .running ∧
    (Test.at 0xFF [0x02]).readMem (Test.at 0xFF [0x02]).pc ∉
      ([0x01, 0x82, 0x47, 0xA2, 0xA0, 0xA7, 0x45, 0x46, 0x50, 0x11, 0x55, 0x56, 0x54] : List Byte) := ⟨rfl, by decide⟩

/-- Two operand bytes at 254 and one at 255: the lowest addresses at which they do not fit. -/
theorem test_witness_FetchOverrunIsRaised :
    (∃ row ∈ opcodeTable, row.opcode = (Test.at 0xFE [0x82]).readMem (Test.at 0xFE [0x82]).pc ∧
      (Test.at 0xFE [0x82]).pc.toNat + row.operands = 256) ∧
    (∃ row ∈ opcodeTable, row.opcode = (Test.at 0xFF [0x54]).readMem (Test.at 0xFF [0x54]).pc ∧
      (Test.at 0xFF [0x54]).pc.toNat + row.operands = 256) :=
  ⟨⟨⟨0x82, "LDI", 2, fun a b => .ldi a b⟩, by simp [opcodeTable], rfl, rfl⟩,
   ⟨⟨0x54, "JMP", 1, fun a _ => .jmp a⟩, by simp [opcodeTable], rfl, rfl⟩⟩

/-- The bytes of an LDI with a bad and with a good register ending at 255, and of a JMP there. -/
theorem test_witness_InvalidRegisterBeforePcOverrun :
    Expect.bytesAtPc (.ldi 8 0) (Test.at 0xFD [0x82, 0x08, 0x00]) ∧
    (Instr.ldi 8 0).registerOperands.find? (fun q => decide (7 < q.toNat)) = some 8 ∧
    Expect.bytesAtPc (.ldi 7 0) (Test.at 0xFD [0x82, 0x07, 0x00]) ∧ (Instr.ldi 7 0).wellFormed = true ∧
    Expect.usesSuccessor (Test.at 0xFD [0x82, 0x07, 0x00]).flags.e (.ldi 7 0) = true ∧
    (Test.at 0xFD [0x82, 0x07, 0x00]).pc.toNat + (encode (.ldi 7 0)).length = 256 ∧
    Expect.usesSuccessor false (.jmp 0) = false := by
  refine ⟨fun k b h => ?_, rfl, fun k b h => ?_, rfl, rfl, rfl, rfl⟩ <;>
    rcases k with _ | _ | _ | k <;> cases h <;> decide

theorem test_witness_FaultRecordContents :
    Test.look (Test.at 0x20 [0x45, 0x10]) Test.record = some (.faulted, 3, 0x20, 0x45, 0x10) ∧
    Test.look (Test.at 0xFE [0x82, 0x00]) Test.record = some (.faulted, 2, 0xFE, 0x82, 0x00) := ⟨rfl, rfl⟩

theorem test_witness_ImageIsPlacedFromAddressZero : (List.replicate 256 (0x01 : Byte)).length ≤ 256 ∧
    ∃ s, State.launch 0xF4 0x00 [] = .ok s :=
  ⟨le_of_eq List.length_replicate, _, rfl⟩

theorem test_witness_LaunchState : (∃ s, State.launch 0xF4 0xFF [0x01] = .ok s) ∧ 256 < (List.replicate 257 (0x01 : Byte)).length :=
  ⟨⟨_, rfl⟩, lt_of_lt_of_eq (Nat.lt_succ_self 256) List.length_replicate.symm⟩

theorem test_witness_CommentAndBlankLinesDoNotCount :
    loadImage (some ["# only".toList, "   ".toList, "11 # three".toList]) = .ok [3] := by rfl

theorem test_witness_LoadErrorsAbortStartup : ["1".toList, "12".toList].contains "12".toList = true ∧
    lineContent "12".toList ≠ [] ∧ binaryValue (lineContent "12".toList) = none := by decide

theorem test_witness_WriteSetsOneCellOnly : (0xFF : Addr) ≠ 0x00 := by decide

theorem test_witness_CanonicalMemoryIsItsReads :
    Memory.wf [(3, 4), (255, 1)] ∧ Memory.write [(255, 1)] 3 4 = [(3, 4), (255, 1)] ∧ Memory.write [(3, 4), (255, 1)] 3 0 = [(255, 1)] := by
  decide

theorem test_witness_LdiLoadsImmediate : Test.ChecksMet 2 [7] [8] (Test.at 0xFE []) (Test.at 0xFD []) ∧
    (7 : Byte).toNat < 8 ∧ (Test.at 0xFC []).pc.toNat + 3 ≤ 255 := by decide
theorem test_witness_PrnEmitsRegister : Test.ChecksMet 1 [7] [8] (Test.at 0xFF []) (Test.at 0xFE []) ∧
    (7 : Byte).toNat < 8 ∧ (Test.at 0xFD []).pc.toNat + 2 ≤ 255 := by decide
theorem test_witness_MulMultipliesModulo256 : Test.ChecksMet 2 [7, 0] [0, 8] (Test.at 0xFE []) (Test.at 0xFD []) ∧
    (7 : Byte).toNat < 8 ∧ (Test.at 0xFC []).pc.toNat + 3 ≤ 255 := by decide
theorem test_witness_AddAddsModulo256 : Test.ChecksMet 2 [0, 7] [8, 9] (Test.at 0xFE []) (Test.at 0xFD []) ∧
    (7 : Byte).toNat < 8 ∧ (Test.at 0xFC []).pc.toNat + 3 ≤ 255 := by decide
theorem test_witness_CmpWritesFlagsOnly : Test.ChecksMet 2 [7, 7] [0, 255] (Test.at 0xFE []) (Test.at 0xFD []) ∧
    (7 : Byte).toNat < 8 ∧ (Test.at 0xFC []).pc.toNat + 3 ≤ 255 := by decide
theorem test_witness_PushStoresBelowStackPointer : Test.ChecksMet 1 [7] [8] (Test.at 0xFF []) (Test.at 0xFE []) ∧
    (7 : Byte).toNat < 8 ∧ (Test.at 0xFD []).pc.toNat + 2 ≤ 255 := by decide
theorem test_witness_PopLoadsFromStackPointer : Test.ChecksMet 1 [7] [16] (Test.at 0xFF []) (Test.at 0xFE []) ∧
    (7 : Byte).toNat < 8 ∧ (Test.at 0xFD []).pc.toNat + 2 ≤ 255 := by decide
theorem test_witness_CallPushesReturnAddress : Test.ChecksMet 1 [7] [255] (Test.at 0xFF []) (Test.at 0xFE []) ∧
    (7 : Byte).toNat < 8 ∧ (Test.at 0xFD []).pc.toNat + 2 ≤ 255 := by decide
theorem test_witness_JeqJumpsWhenEqual : Test.ChecksMet 1 [7] [8] (Test.at 0xFF []) (Test.at 0xFE []) ∧
    (!(Test.at 0xFE []).flags.e) = true ∧ (Test.at 0xFD []).flags.e = false ∧ (Test.at 0xFD []).pc.toNat + 2 ≤ 255 ∧
    { Test.at 0xFE [] with flags := ⟨true, false, false⟩ }.flags.e = true ∧ (Test.at 0xFE []).pc.toNat + 1 ≤ 255 := by decide
theorem test_witness_JneJumpsWhenNotEqual : Test.ChecksMet 1 [7] [8] (Test.at 0xFF []) (Test.at 0xFE []) ∧
    (Test.at 0xFE []).flags.e = false ∧ (Test.at 0xFE []).pc.toNat + 1 ≤ 255 ∧
    { Test.at 0xFD [] with flags := ⟨true, false, false⟩ }.flags.e = true ∧ (Test.at 0xFD []).pc.toNat + 2 ≤ 255 := by decide
theorem test_witness_JmpJumpsToRegister : Test.ChecksMet 1 [7] [8] (Test.at 0xFF []) (Test.at 0xFE []) ∧
    (7 : Byte).toNat < 8 ∧ (Test.at 0xFE []).pc.toNat + 1 ≤ 255 := by decide

/-- Each instruction answers a next state in which what it may change has changed. -/
theorem test_witness_FrameOfRegisterWriters :
    Test.answers (.ldi 7 9) (Test.at 0xFC []) (fun t => decide (t.reg 7 = 9)) ∧
    Test.answers (.mul 0 0) ((Test.at 0 []).setReg 0 16) (fun t => decide (t.reg 0 = 0)) ∧
    Test.answers (.add 0 0) ((Test.at 0 []).setReg 0 200) (fun t => decide (t.reg 0 = 144)) := by decide

theorem test_witness_FrameOfNonWriters :
    Test.answers (.cmp 0 0) (Test.at 0 []) (fun t => t.flags.e) ∧ Test.answers (.prn 0) (Test.at 0 []) (fun t => decide (t.out = [0])) ∧
    Test.answers (.jeq 0) (Test.at 0 []) (fun t => decide (t.pc = 2)) ∧ Test.answers (.jne 0) (Test.at 9 []) (fun t => decide (t.pc = 0)) ∧
    Test.answers (.jmp 0) (Test.at 9 []) (fun t => decide (t.pc = 0)) ∧ Test.answers .hlt (Test.at 9 []) (fun t => decide (t.rs = .halted)) := by
  decide

theorem test_witness_FrameOfStores :
    Test.answers (.push 7) (Test.at 0 []) (fun t => decide (t.readMem 0xFF = 0xFF)) ∧
    Test.answers (.call 0) (Test.at 0 []) (fun t => decide (t.readMem 0xFF = 2)) ∧ (Test.at 0 []).decSp.sp = 0xFF := by decide

theorem test_witness_FrameOfPops :
    Test.answers (.pop 7) (Test.at 0 [0x46, 7]) (fun t => decide (t.reg 7 = 0x47)) ∧
    Test.answers .ret (Test.at 0 [0x11]) (fun t => decide (t.pc = 0x11)) := by decide

theorem test_witness_RegisterWriters :
    Test.look (Test.at 0 [0x82, 3, 9]) (fun t => decide (t.reg 3 ≠ (Test.at 0 [0x82, 3, 9]).reg 3)) = some true ∧
    Test.look (Test.at 0 [0x45, 0]) (fun t => decide (t.reg 7 ≠ (Test.at 0 [0x45, 0]).reg 7)) = some true := ⟨by rfl, by rfl⟩

theorem test_witness_FlagMemoryAndOutputWriters :
    Test.look (Test.at 0 [0xA7, 0, 0]) (fun t => decide (t.flags ≠ (Test.at 0 [0xA7, 0, 0]).flags)) = some true ∧
    Test.look (Test.at 0 [0x45, 7]) (fun t => decide (t.readMem 0xFF ≠ (Test.at 0 [0x45, 7]).readMem 0xFF)) = some true ∧
    Test.look (Test.at 0 [0x47, 7]) (fun t => decide (t.out ≠ (Test.at 0 [0x47, 7]).out)) = some true := ⟨by rfl, by rfl, by rfl⟩

theorem test_witness_AluLaws : 1 ≤ 255 ∧ 255 ≤ 255 ∧ 7 ≤ 7 ∧ alu .add 0 (BitVec.ofNat 8 (256 - 255)) = .value 1 ∧
    alu .mul 0x81 (BitVec.ofNat 8 (2 ^ 7)) = .value 0x80 := by decide

/-- One witness for each of the three relations, the first with a stale flag. -/
theorem test_witness_CmpSetsExactlyOneFlag :
    Test.answers (.cmp 0 1) { Test.at 0xFC [] with flags := ⟨false, false, true⟩ } (fun t => decide (t.rs = .running)) ∧
    Test.answers (.cmp 0 1) ((Test.at 0 []).setReg 1 0xFF) (fun t => decide (t.rs = .running)) ∧
    Test.answers (.cmp 0 1) ((Test.at 0 []).setReg 0 0x80) (fun t => decide (t.rs = .running)) := by decide

theorem test_witness_FlagsStayUntilNextCmp :
    Test.answers (.add 0 1) { Test.at 0 [] with flags := ⟨true, false, false⟩ } (fun t => t.flags.e) ∧
    Test.answers (.mul 0 1) { Test.at 0 [] with flags := ⟨true, false, false⟩ } (fun t => t.flags.e) ∧
    (Expect.execAll [.add 0 1, .mul 0 1, .push 0] (Test.at 0xF5 [])).map (fun t => t.pc.toNat) = some 0xFD := by decide

/-- The PUSH, something between that writes neither `x[7]` nor the cell, and the POP. -/
theorem test_witness_PushThenPopRestores :
    (∃ t v, exec (.push 6) ((Test.at 0 []).setReg 6 5) = .next t ∧ t.rs ≠ .faulted ∧ (t.setReg 6 0).reg 7 = t.reg 7 ∧
      (t.setReg 6 0).readMem (t.reg 7) = t.readMem (t.reg 7) ∧ exec (.pop 6) (t.setReg 6 0) = .next v ∧ v.rs ≠ .faulted) ∧
    (∃ t, Expect.execAll [.push 0, .push 1, .pop 1, .pop 0] (Test.at 0 []) = some t ∧ t.rs ≠ .faulted) ∧
    (∃ t, Expect.execAll [.push 0, .push 1, .pop 0, .pop 1] (Test.at 0 []) = some t ∧ t.rs ≠ .faulted) :=
  ⟨⟨_, _, rfl, by decide, rfl, rfl, rfl, by decide⟩, ⟨_, rfl, by decide⟩, ⟨_, rfl, by decide⟩⟩

theorem test_witness_CallThenRetResumesAfterCall :
    ∃ t v, exec (.call 1) (Test.at 0xFD []) = .next t ∧ t.rs ≠ .faulted ∧ (t.setReg 0 9).reg 7 = t.reg 7 ∧
      (t.setReg 0 9).readMem (t.reg 7) = t.readMem (t.reg 7) ∧ exec .ret (t.setReg 0 9) = .next v :=
  ⟨_, _, rfl, by decide, rfl, rfl, rfl⟩

theorem test_witness_LessAndGreaterSteerNothing : (∃ t, step (Test.at 0 [0x55, 0]) = .next t) ∧
    step (Test.at 0 []).halt = .fault .machineHalted := ⟨⟨_, rfl⟩, rfl⟩

theorem test_witness_OutputIsNeverReadBack : ∃ t, step (Test.at 0 [0x47, 0]) = .next t ∧ t.out = [0] := ⟨_, rfl, rfl⟩

theorem test_witness_LaunchMeetsInvariant : ∃ s, State.launch 0xF4 0xFF [0x01, 0x00] = .ok s ∧ s.readMem 0x02 = 0xFF := ⟨_, rfl, rfl⟩

/-- A running and a faulting step from states that meet the invariant. -/
theorem test_witness_StepKeepsInvariant :
    (Test.at 0 [0x45, 7]).Inv ∧ (∃ t, step (Test.at 0 [0x45, 7]) = .next t ∧ t.rs = .running) ∧
    (Test.at 0 [0x45, 8]).Inv ∧ (∃ t, step (Test.at 0 [0x45, 8]) = .next t ∧ t.rs = .faulted) :=
  ⟨⟨by decide, .inl rfl, fun _ => rfl, fun h => by cases h⟩, ⟨_, rfl, rfl⟩,
   ⟨by decide, .inl rfl, fun _ => rfl, fun h => by cases h⟩, ⟨_, rfl, rfl⟩⟩

theorem test_witness_StepRefinesPseudocode : (Test.at 0x06 [0x50, 7]).rs = .running := rfl

/-! ### The host's events (R203, R204) -/

/-- A started session, running or stopped, takes no load and no start. -/
theorem test_session_refuses : [State.reset, State.reset.halt, State.reset.raise .illegalOpcode 0].map (fun s =>
    ((Session.event 0 0 (.load 0 1) ⟨.started, s⟩).isNone, (Session.event 0 0 .start ⟨.started, s⟩).isNone)) =
      List.replicate 3 (true, true) := by rfl

theorem test_witness_HostEventsWhereAllowed :
    (∃ k, Session.event 0 0 (.load 0xFF 1) ⟨.loading, State.reset⟩ = some k) ∧
    (∃ k, Session.event 0 0 .start ⟨.loading, State.reset⟩ = some k) ∧
    (∃ k, Session.advance ⟨.started, Test.at 0 [0x01]⟩ = some k) ∧
    (∃ s, Session.endState ⟨.started, State.reset.halt⟩ = some s) := ⟨⟨_, rfl⟩, ⟨_, rfl⟩, ⟨_, rfl⟩, ⟨_, rfl⟩⟩

theorem test_witness_EventsComeInOrder :
    (∃ k, Session.moves 0 0 ([.host .start] ++ [.cycle, .host .reset] ++ [.host .start]) ⟨.loading, Test.at 0 [0x01]⟩ = some k) ∧
    (∃ k, Session.moves 0 0 ([.host .start] ++ [.host .reset] ++ [.host (.load 0xFF 1)]) ⟨.loading, State.reset⟩ = some k) ∧
    (∃ k, Session.moves 0 0 ([.host .reset] ++ [.host .start] ++ [.cycle]) ⟨.started, State.reset.halt⟩ = some k) :=
  ⟨⟨_, rfl⟩, ⟨_, rfl⟩, ⟨_, rfl⟩⟩

theorem test_witness_HostLeavesARunAlone :
    ∃ k, Session.moves 0 0 [.cycle, .cycle] ⟨.started, Test.at 0 [0x82, 0x00, 0x08, 0x01]⟩ = some k ∧ k.core.rs = .halted := ⟨_, rfl, rfl⟩

theorem test_witness_EventsGiveTheLaunchState : (List.replicate 256 (0x01 : Byte)).length ≤ 256 :=
  le_of_eq List.length_replicate

theorem test_witness_MovesKeepInvariant : Session.Inv ⟨.loading, Test.at 0 [0x01]⟩ ∧
    (∃ k, Session.moves 0 0 [.host (.load 1 1), .host .start, .cycle] ⟨.loading, Test.at 0 [0x01]⟩ = some k) ∧
    (∃ k, Session.moves 0xF4 0xFF [.host .reset, .host (.load 0 1), .host .start, .cycle] ⟨.started, State.reset.halt⟩ = some k) :=
  ⟨⟨⟨by decide, .inl rfl, fun _ => rfl, fun h => by cases h⟩, fun _ => rfl⟩, ⟨_, rfl⟩, ⟨_, rfl⟩⟩
end

section
/-! PROOF. A memory write sets one cell and changes nothing else (spec `20_memory.md` R51). -/

namespace Sys2Proof.Machine

/-- Settles O21: the cells by the read-after-write laws of memory, every other component by the field lemmas of
`State.writeMem`. -/
theorem writeSetsOneCellOnly : Obligations.WriteSetsOneCellOnly := by
  intro s a b v
  have written : (s.writeMem a v).readMem a = v := s.readMem_writeMem_self a v
  have others : b ≠ a → (s.writeMem a v).readMem b = s.readMem b := s.readMem_writeMem_ne v
  exact ⟨written, others, s.writeMem_x a v, s.writeMem_pc a v, s.writeMem_flags a v, s.writeMem_rs a v,
    s.writeMem_fault a v, s.writeMem_out a v⟩

end Sys2Proof.Machine
end

section
/-! PROOF. An opcode byte selects at most one row of the table, and the row decides the instruction and its length (spec
`30_encoding.md` R72, R77). -/

namespace Sys2Proof

/-! ### The table and the decoder -/

theorem opcodeTable_nodup_opcodes : (opcodeTable.map OpcodeRow.opcode).Nodup := by decide

theorem eq_of_opcode_eq {row row' : OpcodeRow} (h : row ∈ opcodeTable) (h' : row' ∈ opcodeTable)
    (hop : row.opcode = row'.opcode) : row = row' :=
  List.inj_on_of_nodup_map opcodeTable_nodup_opcodes h h' hop

/-- The converse of `lookupOpcode_some`: no earlier row hides one, since the patterns are distinct. -/
theorem lookupOpcode_eq_some_iff {ir : Byte} {row : OpcodeRow} :
    lookupOpcode ir = some row ↔ row ∈ opcodeTable ∧ row.opcode = ir := by
  refine ⟨lookupOpcode_some, fun ⟨hmem, hop⟩ => ?_⟩
  cases hl : lookupOpcode ir with
  | none => exact absurd hop (lookupOpcode_none.1 hl row hmem)
  | some found =>
    obtain ⟨hmem', hop'⟩ := lookupOpcode_some hl
    rw [eq_of_opcode_eq hmem' hmem (hop'.trans hop.symm)]

theorem decode_illegalOpcode_iff {ir : Byte} {bs : List Byte} :
    decode (ir :: bs) = .error .illegalOpcode ↔ lookupOpcode ir = none := by
  constructor
  · intro h
    obtain ⟨-, hnone⟩ | ⟨htrunc, -⟩ := decode_error h
    · exact hnone
    · cases htrunc
  · intro h
    simp [decode, h]

/-- The converse of `decode_ok`. -/
theorem decode_of_lookupOpcode {ir : Byte} {bs : List Byte} {row : OpcodeRow} (hrow : lookupOpcode ir = some row)
    (hlen : row.operands ≤ bs.length) :
    decode (ir :: bs) = .ok (row.build (bs.getD 0 0) (bs.getD 1 0), bs.drop row.operands) := by
  simp only [decode, hrow, if_pos hlen]

theorem length_encode_build {row : OpcodeRow} (h : row ∈ opcodeTable) (a b : Byte) :
    (encode (row.build a b)).length = 1 + row.operands := by
  have allRows : ∀ r ∈ opcodeTable, (encode (r.build a b)).length = 1 + r.operands := by simp [opcodeTable, encode]
  exact allRows row h

/-! ### The statements -/

/-- Settles O3: all three clauses follow from `lookupOpcode`, which sees the opcode byte only and finds the one row with
that pattern. -/
theorem decodingIsTotalAndUnambiguous : Obligations.DecodingIsTotalAndUnambiguous := by
  refine ⟨fun ir => ?_, fun ir bs h => lookupOpcode_none.1 (decode_illegalOpcode_iff.1 h), ?_⟩
  · cases hl : lookupOpcode ir with
    | none => exact .inr fun bs => decode_illegalOpcode_iff.2 hl
    | some row =>
      obtain ⟨hmem, hop⟩ := lookupOpcode_some hl
      exact .inl ⟨row, ⟨hmem, hop⟩, fun row' ⟨hmem', hop'⟩ => eq_of_opcode_eq hmem' hmem (hop'.trans hop.symm)⟩
  · intro ir bs cs rest rest' i j hi hj
    obtain ⟨row, hrow, -, hbuild, -⟩ := decode_ok hi
    obtain ⟨row', hrow', -, hbuild', -⟩ := decode_ok hj
    obtain rfl : row = row' := Option.some.inj (hrow.symm.trans hrow')
    obtain ⟨hmem, hop⟩ := lookupOpcode_some hrow
    exact ⟨row, hmem, hop, ⟨_, _, hbuild⟩, _, _, hbuild'⟩

/-- Settles O4: the row that a decode uses is the row given, as its pattern is the opcode byte; what that row builds has
the row's length. -/
theorem lengthIsDecidedByOpcodeAlone : Obligations.LengthIsDecidedByOpcodeAlone := by
  intro ir row hmem hop
  have hrow : lookupOpcode ir = some row := lookupOpcode_eq_some_iff.2 ⟨hmem, hop⟩
  refine ⟨fun bs rest i h => ?_, fun bs hlen => ⟨_, _, decode_of_lookupOpcode hrow hlen⟩⟩
  obtain ⟨used, hused, hlen, hbuild, hrest⟩ := decode_ok h
  obtain rfl : used = row := Option.some.inj (hused.symm.trans hrow)
  have hencode : (encode i).length = 1 + used.operands := hbuild ▸ length_encode_build hmem _ _
  refine ⟨hencode, ?_⟩
  rw [hencode, hrest, List.length_cons, List.length_drop]
  omega

end Sys2Proof
end

section
/-! PROOF. Outside `running` there is no step; what a step of a running machine can do; which runs end (spec
`40_cycle_and_halt.md` R97, R98). -/

namespace Sys2Proof

theorem decode_encode_append (i : Instr) (rest : List Byte) : decode (encode i ++ rest) = .ok (i, rest) :=
  match i with
  | .hlt => Laws.RoundTrip.hlt rest
  | .ldi a imm => Laws.RoundTrip.ldi a imm rest
  | .prn a => Laws.RoundTrip.prn a rest
  | .mul a b => Laws.RoundTrip.mul a b rest
  | .add a b => Laws.RoundTrip.add a b rest
  | .cmp a b => Laws.RoundTrip.cmp a b rest
  | .push a => Laws.RoundTrip.push a rest
  | .pop a => Laws.RoundTrip.pop a rest
  | .call a => Laws.RoundTrip.call a rest
  | .ret => Laws.RoundTrip.ret rest
  | .jeq a => Laws.RoundTrip.jeq a rest
  | .jne a => Laws.RoundTrip.jne a rest
  | .jmp a => Laws.RoundTrip.jmp a rest

theorem length_encode_le (i : Instr) : (encode i).length ≤ Config.maxInstrBytes := by
  cases i <;> simp [encode, Config.maxInstrBytes]

/-- Only the opcode of HLT decodes to HLT. -/
theorem opcode_of_decode_hlt {ir : Byte} {bs rest : List Byte} (h : decode (ir :: bs) = .ok (.hlt, rest)) : ir = 0x01 := by
  obtain ⟨row, hrow, -, hbuild, -⟩ := decode_ok h
  obtain ⟨hmem, rfl⟩ := lookupOpcode_some hrow
  have allRows : ∀ r ∈ opcodeTable, ∀ a b, .hlt = r.build a b → r.opcode = 0x01 := by simp [opcodeTable]
  exact allRows row hmem _ _ hbuild

end Sys2Proof

namespace Sys2Proof.Machine

/-! ### The step where the machine has stopped, and where the bytes at `pc` are known -/

theorem step_stopped {s : State} (h : s.rs ≠ .running) : ∃ f, step s = .fault f := by
  cases hr : s.rs with
  | running => exact absurd hr h
  | halted => exact ⟨_, step_halted hr⟩
  | faulted => exact ⟨_, step_faulted hr⟩

/-- The fetch window begins with the bytes of the instruction that stands at `pc`. -/
theorem encode_prefix_fetchWindow {s : State} {i : Instr} (h : Expect.bytesAtPc i s) : encode i <+: s.fetchWindow := by
  rw [List.prefix_iff_getElem?]
  intro k hk
  obtain ⟨hpc, hbyte⟩ := h k _ (List.getElem?_eq_getElem hk)
  have hlen : k < Config.maxInstrBytes := hk.trans_le (length_encode_le i)
  rw [State.fetchWindow, Memory.readFrom_getElem?, if_pos ⟨hlen, by omega⟩]
  exact congrArg some hbyte

theorem step_eq_exec_of_bytesAtPc {s : State} {i : Instr} (hrun : s.rs = .running) (h : Expect.bytesAtPc i s) :
    step s = exec i s := by
  obtain ⟨rest, hrest⟩ := encode_prefix_fetchWindow h
  rw [step_running hrun, cycle, ← hrest, decode_encode_append]

theorem bytesAtPc_hlt {s : State} (h : s.readMem s.pc = 0x01) : Expect.bytesAtPc .hlt s := by
  intro k b hk
  obtain ⟨rfl, rfl⟩ : k = 0 ∧ b = 0x01 := by simpa [encode, List.getElem?_singleton, eq_comm] using hk
  exact ⟨Nat.le_of_lt_succ s.pc.isLt, by simpa using h⟩

/-! ### Run state and fault record -/

theorem decodeFault_eq_raise (e : DecodeError) (s : State) : ∃ c, c ≠ .noFault ∧ decodeFault e s = s.raise c 0 := by
  cases e with
  | illegalOpcode => exact ⟨.illegalOpcode, by decide, rfl⟩
  | truncated => exact ⟨.fetchOverrun, by decide, rfl⟩

theorem CheckFailed.eq_raise {s t : State} (h : CheckFailed s t) : ∃ c o, c ≠ .noFault ∧ t = s.raise c o := by
  obtain ⟨c, o, rfl, ⟨rfl, -⟩ | ⟨rfl, -⟩ | ⟨rfl, -⟩⟩ := h <;> exact ⟨_, _, by decide, rfl⟩

/-- An instruction whose checks pass leaves the fault record alone, and only HLT changes the run state. -/
theorem Effect.rs_fault {s t : State} {i : Instr} (h : Effect s t i) :
    t.rs = (if i = .hlt then .halted else s.rs) ∧ t.fault = s.fault := by
  cases i
  case hlt => cases h; exact ⟨rfl, rfl⟩
  case ret => cases h; exact ⟨rfl, rfl⟩
  case ldi | prn | push | pop | call => obtain ⟨ra, next, -, -, rfl⟩ := h; exact ⟨rfl, rfl⟩
  case mul | add | cmp => obtain ⟨ra, rb, next, -, -, -, rfl⟩ := h; exact ⟨rfl, rfl⟩
  case jeq | jne => obtain ⟨ra, -, ⟨-, rfl⟩ | ⟨-, next, -, rfl⟩⟩ := h <;> exact ⟨rfl, rfl⟩
  case jmp => obtain ⟨ra, -, rfl⟩ := h; exact ⟨rfl, rfl⟩

/-- R97's three outcomes: a fault is raised, HLT halts, or the machine runs on. -/
theorem step_outcome {s t : State} (h : step s = .next t) :
    (∃ c o, c ≠ .noFault ∧ t = s.raise c o) ∨
    (s.readMem s.pc = 0x01 ∧ t.rs = .halted ∧ t.fault = s.fault) ∨
    (t.rs = .running ∧ t.fault = s.fault) := by
  obtain ⟨hrun, ⟨i, rest, hdecode, hexec⟩ | ⟨e, -, rfl⟩⟩ := step_cases h
  · obtain hfail | heffect := exec_cases hexec
    · exact .inl hfail.eq_raise
    · obtain ⟨hrs, hfault⟩ := heffect.rs_fault
      by_cases hi : i = .hlt
      · subst hi
        rw [State.fetchWindow_eq] at hdecode
        exact .inr (.inl ⟨opcode_of_decode_hlt hdecode, hrs, hfault⟩)
      · exact .inr (.inr ⟨by rw [hrs, if_neg hi, hrun], hfault⟩)
  · obtain ⟨c, hc, heq⟩ := decodeFault_eq_raise e s
    exact .inl ⟨c, 0, hc, heq⟩

theorem step_next_of_running {s : State} (h : s.rs = .running) : ∃ t, step s = .next t := by
  rw [step_running h, cycle]
  split
  · exact exec_next _ s
  · exact ⟨_, rfl⟩

/-! ### Runs -/

theorem run_succ_of_next {s t : State} (h : step s = .next t) (k : Nat) :
    Host.Core.run Sys2Proof.core (k + 1) s = Host.Core.run Sys2Proof.core k t := by
  have hcore : Host.Core.step Sys2Proof.core s = .next t := h
  simp only [Host.Core.run, hcore]

theorem run_succ_of_fault {s : State} {f : Fault} (h : step s = .fault f) (k : Nat) :
    Host.Core.run Sys2Proof.core (k + 1) s = .fault f := by
  have hcore : Host.Core.step Sys2Proof.core s = .fault f := h
  simp only [Host.Core.run, hcore]

theorem run_reaches_stopped_of_fault {k : Nat} {s : State} {f : Fault}
    (h : Host.Core.run Sys2Proof.core k s = .fault f) :
    ∃ k t, Host.Core.run Sys2Proof.core k s = .next t ∧ State.rs t ≠ .running := by
  induction k generalizing s with
  | zero => cases h
  | succ k ih =>
    by_cases hrun : s.rs = .running
    · obtain ⟨s', hstep⟩ := step_next_of_running hrun
      obtain ⟨j, t, hrunj, ht⟩ := ih ((run_succ_of_next hstep k).symm.trans h)
      exact ⟨j + 1, t, (run_succ_of_next hstep j).trans hrunj, ht⟩
    · exact ⟨0, s, rfl, hrun⟩

theorem run_faults_of_stopped {k : Nat} {s t : State} (h : Host.Core.run Sys2Proof.core k s = .next t)
    (ht : t.rs ≠ .running) : ∃ k f, Host.Core.run Sys2Proof.core k s = .fault f := by
  induction k generalizing s with
  | zero =>
    cases h
    obtain ⟨f, hstep⟩ := step_stopped ht
    exact ⟨1, f, run_succ_of_fault hstep 0⟩
  | succ k ih =>
    by_cases hrun : s.rs = .running
    · obtain ⟨s', hstep⟩ := step_next_of_running hrun
      obtain ⟨j, f, hrunj⟩ := ih ((run_succ_of_next hstep k).symm.trans h)
      exact ⟨j + 1, f, (run_succ_of_next hstep j).trans hrunj⟩
    · obtain ⟨f, hstep⟩ := step_stopped hrun
      exact ⟨1, f, run_succ_of_fault hstep 0⟩

theorem run_of_step_self {s : State} (h : step s = .next s) (k : Nat) : Host.Core.run Sys2Proof.core k s = .next s := by
  induction k with
  | zero => rfl
  | succ k ih => exact (run_succ_of_next h k).trans ih

/-- A JMP whose register holds the JMP's own address steps to the state it started from. -/
theorem step_jmp_self {s : State} {a : Byte} (ha : a.toNat < 8) (hrun : s.rs = .running)
    (hbytes : Expect.bytesAtPc (.jmp a) s) (hreg : s.reg ⟨a.toNat, ha⟩ = s.pc) : step s = .next s := by
  have hfits : s.pc.toNat + 1 ≤ 255 := (hbytes 1 a rfl).1
  calc step s = exec (.jmp a) s := step_eq_exec_of_bytesAtPc hrun hbytes
    _ = .next (checkFetch 1 s <| withRegister a s fun ra => s.setPc (s.reg ra)) := rfl
    _ = .next (s.setPc s.pc) := by rw [checkFetch_ok _ hfits, withRegister_ok _ ha, hreg]

/-! ### The statements -/

/-- Settles O10: by the stopped branches of the step. -/
theorem stoppedMachineTakesNoStep : Obligations.StoppedMachineTakesNoStep :=
  ⟨fun _ => step_halted, fun _ => step_faulted⟩

/-- Settles O9: the first two clauses from the three outcomes of a step, the third by induction on the length of the run,
the last because the JMP's step changes nothing. -/
theorem stepOutcomes : Obligations.StepOutcomes := by
  refine ⟨fun s hrun => ?_, fun s => ⟨fun ⟨_, h⟩ => (step_cases h).1, step_next_of_running⟩,
    fun s => ⟨fun ⟨_, _, h⟩ => run_reaches_stopped_of_fault h, fun ⟨_, _, h, ht⟩ => run_faults_of_stopped h ht⟩,
    fun s a ha hrun hbytes hreg => run_of_step_self (step_jmp_self ha hrun hbytes hreg)⟩
  obtain ⟨t, hstep⟩ := step_next_of_running hrun
  have halts : s.readMem s.pc = 0x01 → t.rs = .halted := fun hir => by
    cases hstep.symm.trans (step_eq_exec_of_bytesAtPc hrun (bytesAtPc_hlt hir))
    exact s.halt_rs
  refine ⟨t, hstep, ⟨fun hrs => ?_, halts⟩, ?_⟩
  · obtain ⟨c, o, -, rfl⟩ | ⟨hir, -⟩ | ⟨hrs', -⟩ := step_outcome hstep
    · cases hrs
    · exact hir
    · rw [hrs'] at hrs; cases hrs
  · obtain ⟨c, o, hc, rfl⟩ | ⟨-, hrs, hfault⟩ | ⟨hrs, hfault⟩ := step_outcome hstep
    · exact ⟨fun h => absurd rfl h, fun _ => ⟨hc, rfl⟩⟩
    · exact ⟨fun _ => hfault, fun h => by rw [hrs] at h; cases h⟩
    · exact ⟨fun _ => hfault, fun h => by rw [hrs] at h; cases h⟩

end Sys2Proof.Machine
end

section
/-! PROOF. The model's step is the spec's step function (spec `40_cycle_and_halt.md` R96). `Ref.view` turns each operation
on the model's state into R96's operation on numbers and functions, each of the model's checks into a line of R96, and each
row of the opcode table into an arm. -/

namespace Sys2Proof

theorem operands_le_two : ∀ row ∈ opcodeTable, row.operands ≤ 2 := by simp [opcodeTable]

theorem decode_truncated {ir : Byte} {bs : List Byte} {row : OpcodeRow} (hrow : lookupOpcode ir = some row)
    (hshort : bs.length < row.operands) : decode (ir :: bs) = .error .truncated := by
  simp only [decode, hrow, if_neg (Nat.not_le.2 hshort)]

/-- The fetch window is short of `n` operand bytes only where they do not fit below address 256. -/
theorem Machine.Memory.over_of_length_readFrom_lt {m : Memory} {p n : Nat} (hn : n ≤ 2)
    (hshort : (m.readFrom (p + 1) 2).length < n) : 255 < p + n := by
  by_contra hfits
  have hnone := List.getElem?_eq_none (Nat.le_sub_one_of_lt hshort)
  rw [readFrom_getElem?, if_pos (by omega)] at hnone
  cases hnone

end Sys2Proof

namespace Sys2Proof.Ref

open Machine

/-! ### The view of each state operation -/

theorem view_x (s : State) (q : RegNum) : (view s).x q.val = (s.reg q).toNat := by simp [view]

theorem view_x7 (s : State) : (view s).x 7 = s.sp.toNat := view_x s 7

theorem view_mem (s : State) (a : Addr) : (view s).mem a.toNat = (s.readMem a).toNat := by
  simp [view, a.isLt]

@[simp] theorem view_pc (s : State) : (view s).pc = s.pc.toNat := rfl
@[simp] theorem view_E (s : State) : (view s).E = s.flags.e := rfl

theorem view_setReg (s : State) (r : RegNum) (v : Byte) : view (s.setReg r v) = (view s).setX r.val v.toNat := by
  have registers : (view (s.setReg r v)).x = ((view s).setX r.val v.toNat).x := by
    funext i
    by_cases hi : i < 8
    · simp only [view, Components.setX, dif_pos hi, State.reg_setReg, Fin.ext_iff]
      split
      · exact (Nat.mod_eq_of_lt v.isLt).symm
      · rfl
    · have hne : i ≠ r.val := by omega
      simp [view, Components.setX, hi, hne]
  exact congrArg (fun x => { view s with x := x }) registers

theorem view_writeMem (s : State) (a : Addr) (v : Byte) : view (s.writeMem a v) = (view s).memWrite a.toNat v.toNat := by
  have cells : (view (s.writeMem a v)).mem = ((view s).memWrite a.toNat v.toNat).mem := by
    funext j
    by_cases hj : j < 256
    · have hiff : BitVec.ofNat 8 j = a ↔ j = a.toNat := by
        rw [← BitVec.toNat_inj, BitVec.toNat_ofNat, Nat.mod_eq_of_lt hj]
      simp only [view, Components.memWrite, if_pos hj, State.readMem_eq, State.writeMem_mem, Memory.read_write, hiff]
      split
      · exact (Nat.mod_eq_of_lt v.isLt).symm
      · rfl
    · have hne : j ≠ a.toNat := by have := a.isLt; omega
      simp [view, Components.memWrite, hj, hne]
  exact congrArg (fun m => { view s with mem := m }) cells

theorem view_setPc (s : State) (a : Addr) : view (s.setPc a) = { view s with pc := a.toNat } := rfl

theorem view_setFlags (s : State) (f : Flags) : view (s.setFlags f) = { view s with E := f.e, L := f.l, G := f.g } := rfl

theorem view_emit (s : State) (v : Byte) : view (s.emit v) = { view s with out := (view s).out ++ [v.toNat] } := by
  simp [view, State.reg_eq, State.readMem_eq]

theorem view_halt (s : State) : view s.halt = { view s with rs := .halted } := rfl

theorem view_raise (s : State) (c : FaultCause) (o : Byte) :
    view (s.raise c o) = (view s).raised c.code s.pc.toNat (s.readMem s.pc).toNat o.toNat := rfl

/-- `x[i] <- v` takes `v` modulo 256. -/
theorem view_setReg_ofNat (s : State) (r : RegNum) (v : Nat) :
    view (s.setReg r (BitVec.ofNat 8 v)) = (view s).setX r.val v := by
  rw [view_setReg]
  simp [Components.setX]

theorem view_decSp (s : State) : view s.decSp = (view s).setX 7 ((view s).x 7 + 255) := by
  have hdec : s.sp - 1 = BitVec.ofNat 8 (s.sp.toNat + 255) := by bv_omega
  rw [State.decSp, hdec, view_x7]
  exact view_setReg_ofNat _ _ _

theorem view_incSp (s : State) : view s.incSp = (view s).setX 7 ((view s).x 7 + 1) := by
  have hinc : s.sp + 1 = BitVec.ofNat 8 (s.sp.toNat + 1) := by bv_omega
  rw [State.incSp, hinc, view_x7]
  exact view_setReg_ofNat _ _ _

theorem view_storeTop (s : State) (v : Byte) : view (s.storeTop v) = (view s).memWrite ((view s).x 7) v.toNat := by
  rw [State.storeTop, view_writeMem, view_x7]

theorem view_loadTop (s : State) : (view s).mem ((view s).x 7) = s.loadTop.toNat := by
  rw [view_x7, view_mem]; rfl

theorem view_writeAlu_mul (s : State) (ra rb : RegNum) :
    view (s.writeAlu ra (alu .mul (s.reg ra) (s.reg rb))) =
      (view s).setX ra.val ((view s).x ra.val * (view s).x rb.val) := by
  rw [view_x, view_x]
  exact view_setReg_ofNat _ _ _

theorem view_writeAlu_add (s : State) (ra rb : RegNum) :
    view (s.writeAlu ra (alu .add (s.reg ra) (s.reg rb))) =
      (view s).setX ra.val ((view s).x ra.val + (view s).x rb.val) := by
  rw [view_x, view_x]
  exact view_setReg_ofNat _ _ _

theorem view_writeAlu_cmp (s : State) (ra rb : RegNum) :
    view (s.writeAlu ra (alu .cmp (s.reg ra) (s.reg rb))) =
      { view s with
        E := decide ((view s).x ra.val = (view s).x rb.val)
        L := decide ((view s).x ra.val < (view s).x rb.val)
        G := decide ((view s).x ra.val > (view s).x rb.val) } := by
  rw [view_x, view_x]
  exact view_setFlags s _

/-! ### The checks -/

theorem view_checkFetch {n : Nat} {s onward : State} {c : Components} (h : view onward = c) :
    view (checkFetch n s onward) =
      if s.pc.toNat + n > 255 then (view s).raised 2 s.pc.toNat (s.readMem s.pc).toNat 0 else c := by
  subst h
  exact apply_ite view _ _ _

theorem view_withRegister {r : Byte} {s : State} {onward : RegNum → State} {c : Components}
    (h : ∀ q : RegNum, q.val = r.toNat → view (onward q) = c) :
    view (withRegister r s onward) =
      if r.toNat > 7 then (view s).raised 3 s.pc.toNat (s.readMem s.pc).toNat r.toNat else c := by
  split
  · next hr => rw [withRegister_bad _ hr, view_raise]; rfl
  · next hr => rw [withRegister_ok _ (by omega)]; exact h _ rfl

theorem view_withSuccessor {len : Nat} {s : State} {onward : Addr → State} {c : Components}
    (h : ∀ next : Addr, next.toNat = s.pc.toNat + len → view (onward next) = c) :
    view (withSuccessor len s onward) =
      if s.pc.toNat + len > 255 then (view s).raised 4 s.pc.toNat (s.readMem s.pc).toNat 0 else c := by
  split
  · next hp => rw [withSuccessor_over _ hp, view_raise]; rfl
  · next hp => rw [withSuccessor_ok _ (by omega)]; exact h _ (by simp; omega)

/-! ### Each instruction from its fetched bytes -/

/-- What R96 has read when it reaches its checks: the mnemonic `m` with `n` operands, and the bytes after the opcode. An
operand that `m` does not have may be any byte. -/
structure Fetched (s : State) (m : Op) (n : Nat) (a b : Byte) : Prop where
  decode : Ref.decode (s.readMem s.pc).toNat = some (m, n)
  first : (view s).mem (s.pc.toNat + 1) = a.toNat
  second : (view s).mem (s.pc.toNat + 2) = b.toNat

section
variable {s : State} {m : Op} {a b : Byte}

/-! R96's fetch and checks, for each form of instruction: what is left is the arm. -/

/-- LDI. -/
theorem Fetched.registerImmediate {f : RegNum → Addr → State} (h : Fetched s .LDI 2 a b)
    (hf : ∀ (ra : RegNum) (next : Addr), next.toNat = s.pc.toNat + 3 →
      view (f ra next) = arm .LDI false s.pc.toNat ra.val b.toNat (view s)) :
    Ref.step (view s) = view (checkFetch 2 s <| withRegister a s fun ra => withSuccessor 3 s (f ra)) := by
  rw [view_checkFetch (view_withRegister fun ra hra => view_withSuccessor fun next hn => hra ▸ hf ra next hn)]
  simp [Ref.step, view_mem, h.decode, h.first, h.second]

/-- PRN, PUSH, POP and CALL. -/
theorem Fetched.oneRegister {f : RegNum → Addr → State} (h : Fetched s m 1 a b) (hm : m ∈ [Op.PRN, .PUSH, .POP, .CALL])
    (hf : ∀ (ra : RegNum) (next : Addr), next.toNat = s.pc.toNat + 2 →
      view (f ra next) = arm m false s.pc.toNat ra.val b.toNat (view s)) :
    Ref.step (view s) = view (checkFetch 1 s <| withRegister a s fun ra => withSuccessor 2 s (f ra)) := by
  rw [view_checkFetch (view_withRegister fun ra hra => view_withSuccessor fun next hn => hra ▸ hf ra next hn)]
  simp only [List.mem_cons, List.not_mem_nil, or_false] at hm
  rcases hm with rfl | rfl | rfl | rfl <;> simp [Ref.step, view_mem, h.decode, h.first, h.second]

/-- MUL, ADD and CMP. -/
theorem Fetched.twoRegisters {op : AluOp} (h : Fetched s m 2 a b) (hm : m ∈ [Op.MUL, .ADD, .CMP])
    (hf : ∀ (ra rb : RegNum) (next : Addr), next.toNat = s.pc.toNat + 3 →
      view ((s.writeAlu ra (alu op (s.reg ra) (s.reg rb))).setPc next) =
        arm m false s.pc.toNat ra.val rb.val (view s)) :
    Ref.step (view s) = view (aluInstruction op a b s) := by
  rw [aluInstruction, view_checkFetch (view_withRegister fun ra hra => view_withRegister fun rb hrb =>
    view_withSuccessor fun next hn => hra ▸ hrb ▸ hf ra rb next hn)]
  simp only [List.mem_cons, List.not_mem_nil, or_false] at hm
  rcases hm with rfl | rfl | rfl <;> simp [Ref.step, view_mem, h.decode, h.first, h.second]

/-- A jump that is taken: JMP, JEQ with `E = 1`, JNE with `E = 0`. -/
theorem Fetched.jump (h : Fetched s m 1 a b)
    (hm : m = .JMP ∨ (m = .JEQ ∧ s.flags.e = true) ∨ (m = .JNE ∧ s.flags.e = false)) :
    Ref.step (view s) = view (checkFetch 1 s <| withRegister a s fun ra => s.setPc (s.reg ra)) := by
  have target : ∀ ra : RegNum, ra.val = a.toNat → view (s.setPc (s.reg ra)) = { view s with pc := (view s).x a.toNat } :=
    fun ra hra => by rw [view_setPc, ← view_x, hra]
  rw [view_checkFetch (view_withRegister target)]
  obtain rfl | ⟨rfl, he⟩ | ⟨rfl, he⟩ := hm
  · simp [Ref.step, view_mem, h.decode, h.first, arm]
  · simp [Ref.step, view_mem, h.decode, h.first, arm, he]
  · simp [Ref.step, view_mem, h.decode, h.first, arm, he]

/-- A conditional jump that is not taken. -/
theorem Fetched.fallThrough (h : Fetched s m 1 a b)
    (hm : (m = .JEQ ∧ s.flags.e = false) ∨ (m = .JNE ∧ s.flags.e = true)) :
    Ref.step (view s) =
      view (checkFetch 1 s <| withRegister a s fun _ => withSuccessor 2 s fun next => s.setPc next) := by
  have onward : ∀ next : Addr, next.toNat = s.pc.toNat + 2 → view (s.setPc next) = { view s with pc := s.pc.toNat + 2 } :=
    fun next hn => by rw [view_setPc, hn]
  rw [view_checkFetch (view_withRegister fun _ _ => view_withSuccessor onward)]
  obtain ⟨rfl, he⟩ | ⟨rfl, he⟩ := hm <;> simp [Ref.step, view_mem, h.decode, h.first, arm, he]

/-! Each instruction. -/

theorem Fetched.hlt (h : Fetched s .HLT 0 a b) : ∃ t, exec .hlt s = .next t ∧ Ref.step (view s) = view t := by
  refine ⟨_, rfl, ?_⟩
  have hp : ¬ s.pc.toNat > 255 := by have := s.pc.isLt; omega
  simp [Ref.step, view_mem, h.decode, hp, arm, view_halt]

theorem Fetched.ret (h : Fetched s .RET 0 a b) : ∃ t, exec .ret s = .next t ∧ Ref.step (view s) = view t := by
  refine ⟨_, rfl, ?_⟩
  have hp : ¬ s.pc.toNat > 255 := by have := s.pc.isLt; omega
  simp [Ref.step, view_mem, h.decode, hp, arm, view_setPc, view_incSp, view_loadTop]

theorem Fetched.ldi (h : Fetched s .LDI 2 a b) : ∃ t, exec (.ldi a b) s = .next t ∧ Ref.step (view s) = view t := by
  refine ⟨_, rfl, h.registerImmediate fun ra next hn => ?_⟩
  rw [view_setPc, view_setReg, hn]; rfl

theorem Fetched.prn (h : Fetched s .PRN 1 a b) : ∃ t, exec (.prn a) s = .next t ∧ Ref.step (view s) = view t := by
  refine ⟨_, rfl, h.oneRegister (by decide) fun ra next hn => ?_⟩
  rw [view_setPc, view_emit, hn, ← view_x]; rfl

theorem Fetched.push (h : Fetched s .PUSH 1 a b) : ∃ t, exec (.push a) s = .next t ∧ Ref.step (view s) = view t := by
  refine ⟨_, rfl, h.oneRegister (by decide) fun ra next hn => ?_⟩
  rw [view_setPc, view_storeTop, hn, ← view_x, view_decSp]; rfl

theorem Fetched.pop (h : Fetched s .POP 1 a b) : ∃ t, exec (.pop a) s = .next t ∧ Ref.step (view s) = view t := by
  refine ⟨_, rfl, h.oneRegister (by decide) fun ra next hn => ?_⟩
  rw [view_setPc, view_incSp, view_setReg, hn, ← view_loadTop]; rfl

theorem Fetched.call (h : Fetched s .CALL 1 a b) : ∃ t, exec (.call a) s = .next t ∧ Ref.step (view s) = view t := by
  refine ⟨_, rfl, h.oneRegister (by decide) fun ra next hn => ?_⟩
  rw [view_setPc, ← view_x, view_storeTop, hn, view_decSp]; rfl

theorem Fetched.mul (h : Fetched s .MUL 2 a b) : ∃ t, exec (.mul a b) s = .next t ∧ Ref.step (view s) = view t := by
  refine ⟨_, rfl, h.twoRegisters (by decide) fun ra rb next hn => ?_⟩
  rw [view_setPc, view_writeAlu_mul, hn]; rfl

theorem Fetched.add (h : Fetched s .ADD 2 a b) : ∃ t, exec (.add a b) s = .next t ∧ Ref.step (view s) = view t := by
  refine ⟨_, rfl, h.twoRegisters (by decide) fun ra rb next hn => ?_⟩
  rw [view_setPc, view_writeAlu_add, hn]; rfl

theorem Fetched.cmp (h : Fetched s .CMP 2 a b) : ∃ t, exec (.cmp a b) s = .next t ∧ Ref.step (view s) = view t := by
  refine ⟨_, rfl, h.twoRegisters (by decide) fun ra rb next hn => ?_⟩
  rw [view_setPc, view_writeAlu_cmp, hn]; rfl

theorem Fetched.jeq (h : Fetched s .JEQ 1 a b) : ∃ t, exec (.jeq a) s = .next t ∧ Ref.step (view s) = view t := by
  refine ⟨_, rfl, ?_⟩
  cases he : s.flags.e with
  | true => exact h.jump (.inr (.inl ⟨rfl, he⟩))
  | false => exact h.fallThrough (.inl ⟨rfl, he⟩)

theorem Fetched.jne (h : Fetched s .JNE 1 a b) : ∃ t, exec (.jne a) s = .next t ∧ Ref.step (view s) = view t := by
  refine ⟨_, rfl, ?_⟩
  cases he : s.flags.e with
  | true => exact h.fallThrough (.inr ⟨rfl, he⟩)
  | false => exact h.jump (.inr (.inr ⟨rfl, he⟩))

theorem Fetched.jmp (h : Fetched s .JMP 1 a b) : ∃ t, exec (.jmp a) s = .next t ∧ Ref.step (view s) = view t :=
  ⟨_, rfl, h.jump (.inl rfl)⟩

end

/-! ### The fetch -/

/-- A row of the opcode table is R96's: same opcode, same operand count, and its instruction does what R96's arm does. -/
def RowRefines (row : OpcodeRow) : Prop :=
  ∃ m, Ref.decode row.opcode.toNat = some (m, row.operands) ∧
    ∀ (s : State) (a b : Byte), Fetched s m row.operands a b →
      ∃ t, exec (row.build a b) s = .next t ∧ Ref.step (view s) = view t

theorem opcodeTable_refines : ∀ row ∈ opcodeTable, RowRefines row := by
  simp only [opcodeTable, List.forall_mem_cons]
  exact ⟨⟨.HLT, rfl, fun _ _ _ h => h.hlt⟩, ⟨.LDI, rfl, fun _ _ _ h => h.ldi⟩, ⟨.PRN, rfl, fun _ _ _ h => h.prn⟩,
    ⟨.MUL, rfl, fun _ _ _ h => h.mul⟩, ⟨.ADD, rfl, fun _ _ _ h => h.add⟩, ⟨.CMP, rfl, fun _ _ _ h => h.cmp⟩,
    ⟨.PUSH, rfl, fun _ _ _ h => h.push⟩, ⟨.POP, rfl, fun _ _ _ h => h.pop⟩, ⟨.CALL, rfl, fun _ _ _ h => h.call⟩,
    ⟨.RET, rfl, fun _ _ _ h => h.ret⟩, ⟨.JEQ, rfl, fun _ _ _ h => h.jeq⟩, ⟨.JNE, rfl, fun _ _ _ h => h.jne⟩,
    ⟨.JMP, rfl, fun _ _ _ h => h.jmp⟩, List.forall_mem_nil _⟩

/-- An opcode that is in no row of the table is none of R96's. -/
theorem decode_of_lookupOpcode_none {ir : Byte} (h : lookupOpcode ir = none) : Ref.decode ir.toNat = none := by
  have noRow : ∀ row ∈ opcodeTable, ir.toNat ≠ row.opcode.toNat := fun row hmem heq =>
    lookupOpcode_none.1 h row hmem (BitVec.eq_of_toNat_eq heq.symm)
  simp only [opcodeTable, List.forall_mem_cons, BitVec.reduceToNat] at noRow
  simp [Ref.decode, noRow]

/-- The bytes of the fetch window after the opcode, with 0 for a byte above address 255, are those that R96 reads. -/
theorem view_mem_window (s : State) {k : Nat} (hk : k < 2) :
    (view s).mem (s.pc.toNat + 1 + k) = ((s.mem.readFrom (s.pc.toNat + 1) 2).getD k 0).toNat := by
  rw [List.getD_eq_getElem?_getD, Memory.readFrom_getElem?]
  by_cases hp : s.pc.toNat + 1 + k < 256
  · rw [if_pos ⟨hk, hp⟩]; exact if_pos hp
  · rw [if_neg fun h => hp h.2]; exact if_neg hp

theorem step_view_illegal {s : State} (h : lookupOpcode (s.readMem s.pc) = none) :
    Ref.step (view s) = view (s.raise .illegalOpcode 0) := by
  simp [Ref.step, view_mem, decode_of_lookupOpcode_none h, view_raise, FaultCause.code]

theorem step_view_overrun {s : State} {m : Op} {n : Nat} (hd : Ref.decode (s.readMem s.pc).toNat = some (m, n))
    (hover : s.pc.toNat + n > 255) : Ref.step (view s) = view (s.raise .fetchOverrun 0) := by
  simp [Ref.step, view_mem, hd, hover, view_raise, FaultCause.code]

/-- Settles O55: the opcode byte selects no row, or a row whose operand bytes do not fit, or a row that is R96's. -/
theorem stepRefinesPseudocode : Obligations.StepRefinesPseudocode := by
  intro s hrun
  rw [step_running hrun, cycle, State.fetchWindow_eq]
  cases hrow : lookupOpcode (s.readMem s.pc) with
  | none =>
    rw [decode_illegalOpcode_iff.2 hrow]
    exact ⟨_, rfl, step_view_illegal hrow⟩
  | some row =>
    obtain ⟨hmem, hop⟩ := lookupOpcode_some hrow
    obtain ⟨m, hdecode, hrefines⟩ := opcodeTable_refines row hmem
    rw [hop] at hdecode
    by_cases hlen : row.operands ≤ (s.mem.readFrom (s.pc.toNat + 1) 2).length
    · rw [decode_of_lookupOpcode hrow hlen]
      exact hrefines s _ _ ⟨hdecode, view_mem_window s Nat.zero_lt_two, view_mem_window s Nat.one_lt_two⟩
    · have hshort := Nat.lt_of_not_le hlen
      have hover := Memory.over_of_length_readFrom_lt (operands_le_two row hmem) hshort
      rw [decode_truncated hrow hshort]
      exact ⟨_, rfl, step_view_overrun hdecode hover⟩

end Sys2Proof.Ref
end

section
/-! PROOF. LDI: encoding, effect and faults (spec `41_data_movement.md` R110), from the course that the instructions with
one register operand byte that use their successor share. -/

namespace Sys2Proof.Machine

section
variable {i : Instr} {n : Nat} {a : Byte} {s : State} {f : RegNum → Addr → State}
  (hexec : exec i s = .next (checkFetch n s <| withRegister a s fun ra => withSuccessor (n + 1) s (f ra)))
include hexec

/-- The faults of LDI, PRN, PUSH, POP and CALL (R93): each clause is one failed check, with the earlier ones passed. -/
theorem checks_oneRegister : Expect.checks i n [a] true s := by
  refine ⟨fun hfetch => ?overrun, fun r hfetch hbad => ?invalid, fun hfetch hreg _ hnext => ?successor⟩
  case overrun => rw [hexec, checkFetch_over _ hfetch]; rfl
  case invalid =>
    obtain ⟨ha, rfl⟩ : 7 < a.toNat ∧ a = r := by simpa using hbad
    rw [hexec, checkFetch_ok _ hfetch, withRegister_bad _ ha]; rfl
  case successor =>
    have ha : a.toNat < 8 := Nat.lt_succ_of_le (hreg a (List.mem_singleton_self a))
    rw [hexec, checkFetch_ok _ hfetch, withRegister_ok _ ha, withSuccessor_over _ hnext]; rfl

/-- Their course when every check passes. -/
theorem exec_oneRegister_ok (ha : a.toNat < 8) (hnext : s.pc.toNat + (n + 1) ≤ 255) :
    exec i s = .next (f ⟨a.toNat, ha⟩ (BitVec.ofNat 8 (s.pc.toNat + (n + 1)))) := by
  rw [hexec, checkFetch_ok _ (by omega), withRegister_ok _ ha, withSuccessor_ok _ hnext]

end

theorem exec_ldi_eq (a imm : Byte) (s : State) : exec (.ldi a imm) s =
    .next (checkFetch 2 s <| withRegister a s fun ra => withSuccessor 3 s fun next => (s.setReg ra imm).setPc next) := rfl

/-- Settles O24: the bytes by the decoder's own law, faults and effect by the shared course. -/
theorem ldiLoadsImmediate : Obligations.LdiLoadsImmediate := fun a imm s =>
  ⟨decode_ldi a imm [], checks_oneRegister (exec_ldi_eq a imm s), exec_oneRegister_ok (exec_ldi_eq a imm s)⟩

end Sys2Proof.Machine
end

section
/-! PROOF. MUL and ADD: encoding, effect and faults (spec `42_alu.md` R122, R123), from the course that the instructions of
the ALU share. -/

namespace Sys2Proof.Machine

/-! ### The course of an ALU instruction -/

/-- The faults of MUL, ADD and CMP (R93): each clause is one failed check, with the earlier ones passed; the register
bytes are looked at in order. -/
theorem checks_aluInstruction {i : Instr} {op : AluOp} {a b : Byte} {s : State}
    (hexec : exec i s = .next (aluInstruction op a b s)) : Expect.checks i 2 [a, b] true s := by
  refine ⟨fun hfetch => ?overrun, fun r hfetch hbad => ?invalid, fun hfetch hregs _ hnext => ?successor⟩ <;>
    rw [hexec, aluInstruction]
  case overrun => rw [checkFetch_over _ hfetch]; rfl
  case invalid =>
    rw [checkFetch_ok _ hfetch]
    by_cases ha : 7 < a.toNat
    · obtain rfl : a = r := by simpa [ha] using hbad
      rw [withRegister_bad _ ha]; rfl
    · obtain ⟨hb, rfl⟩ : 7 < b.toNat ∧ b = r := by simpa [ha] using hbad
      rw [withRegister_ok _ (by omega), withRegister_bad _ hb]; rfl
  case successor =>
    have ha : a.toNat ≤ 7 := hregs a (by simp)
    have hb : b.toNat ≤ 7 := hregs b (by simp)
    rw [checkFetch_ok _ hfetch, withRegister_ok _ (by omega), withRegister_ok _ (by omega), withSuccessor_over _ hnext]
    rfl

/-- The course when every check passes. -/
theorem aluInstruction_ok (op : AluOp) {a b : Byte} {s : State} (ha : a.toNat < 8) (hb : b.toNat < 8)
    (hnext : s.pc.toNat + 3 ≤ 255) :
    aluInstruction op a b s =
      (s.writeAlu ⟨a.toNat, ha⟩ (alu op (s.reg ⟨a.toNat, ha⟩) (s.reg ⟨b.toNat, hb⟩))).setPc
        (BitVec.ofNat 8 (s.pc.toNat + 3)) := by
  rw [aluInstruction, checkFetch_ok _ (by omega), withRegister_ok _ ha, withRegister_ok _ hb, withSuccessor_ok _ hnext]

/-! ### The two instructions -/

theorem exec_mul_eq (a b : Byte) (s : State) : exec (.mul a b) s = .next (aluInstruction .mul a b s) := rfl

theorem exec_add_eq (a b : Byte) (s : State) : exec (.add a b) s = .next (aluInstruction .add a b s) := rfl

/-- Settles O26: the bytes by the decoder's own law, the faults by the shared course, and the value written is the exact
product, of which a byte keeps the remainder modulo 256. -/
theorem mulMultipliesModulo256 : Obligations.MulMultipliesModulo256 := fun a b s =>
  ⟨decode_mul a b [], checks_aluInstruction (exec_mul_eq a b s), fun ha hb hnext =>
    ⟨_, BitVec.toNat_ofNat _ 8, congrArg Host.Outcome.next (aluInstruction_ok .mul ha hb hnext)⟩⟩

/-- Settles O27: as for MUL, with the exact sum. -/
theorem addAddsModulo256 : Obligations.AddAddsModulo256 := fun a b s =>
  ⟨decode_add a b [], checks_aluInstruction (exec_add_eq a b s), fun ha hb hnext =>
    ⟨_, BitVec.toNat_ofNat _ 8, congrArg Host.Outcome.next (aluInstruction_ok .add ha hb hnext)⟩⟩

end Sys2Proof.Machine
end

section
/-! PROOF. The flags: CMP rewrites all three by the unsigned relation, and nothing else writes them until the next CMP (spec
`42_alu.md` R125, R127). -/

namespace Sys2Proof.Machine

/-! ### What CMP leaves in the flags -/

section
variable {va vb : Byte}

theorem compareFlags_of_eq (h : va.toNat = vb.toNat) : compareFlags va vb = ⟨true, false, false⟩ := by
  simp [compareFlags, h]

theorem compareFlags_of_lt (h : va.toNat < vb.toNat) : compareFlags va vb = ⟨false, true, false⟩ := by
  simp [compareFlags, h, h.ne, h.le]

theorem compareFlags_of_gt (h : vb.toNat < va.toNat) : compareFlags va vb = ⟨false, false, true⟩ := by
  simp [compareFlags, h, h.ne', h.le]

end

/-- The unsigned relation has exactly one of its three cases, so exactly one flag is set. -/
theorem compareFlags_exactly_one (va vb : Byte) :
    (compareFlags va vb).e.toNat + (compareFlags va vb).l.toNat + (compareFlags va vb).g.toNat = 1 := by
  obtain h | h | h := lt_trichotomy va.toNat vb.toNat
  · rw [compareFlags_of_lt h]; rfl
  · rw [compareFlags_of_eq h]; rfl
  · rw [compareFlags_of_gt h]; rfl

theorem CheckFailed.rs {s t : State} (h : CheckFailed s t) : t.rs = .faulted := by
  obtain ⟨c, o, -, rfl⟩ := h.eq_raise
  rfl

theorem CheckFailed.flags {s t : State} (h : CheckFailed s t) : t.flags = s.flags := by
  obtain ⟨c, o, -, rfl⟩ := h.eq_raise
  rfl

/-- A CMP that raises no fault leaves the comparison of its two registers, whatever the flags were. -/
theorem flags_of_exec_cmp {a b : Byte} (ha : a.toNat < 8) (hb : b.toNat < 8) {s t : State}
    (hexec : exec (.cmp a b) s = .next t) (hrs : t.rs ≠ .faulted) :
    t.flags = compareFlags (s.reg ⟨a.toNat, ha⟩) (s.reg ⟨b.toNat, hb⟩) := by
  obtain hfail | ⟨ra, rb, next, hra, hrb, -, rfl⟩ := exec_cases hexec
  · exact absurd hfail.rs hrs
  · obtain rfl : ra = ⟨a.toNat, ha⟩ := Fin.ext hra
    obtain rfl : rb = ⟨b.toNat, hb⟩ := Fin.ext hrb
    rfl

/-- Settles O44: the flags are the comparison of the two registers, case by case of the relation. -/
theorem cmpSetsExactlyOneFlag : Obligations.CmpSetsExactlyOneFlag := by
  intro a b ha hb s t _ hexec hrs
  rw [flags_of_exec_cmp ha hb hexec (by simp [hrs])]
  exact ⟨compareFlags_of_eq, compareFlags_of_lt, compareFlags_of_gt, compareFlags_exactly_one _ _⟩

/-! ### What leaves the flags alone -/

/-- Of all effects, only CMP's writes the flags. -/
theorem Effect.flags {s t : State} {i : Instr} (h : Effect s t i) (hi : ∀ a b, i ≠ .cmp a b) : t.flags = s.flags := by
  cases i
  case cmp a b => exact absurd rfl (hi a b)
  case hlt | ret => cases h; rfl
  case ldi | prn | push | pop | call => obtain ⟨ra, next, -, -, rfl⟩ := h; rfl
  case mul | add => obtain ⟨ra, rb, next, -, -, -, rfl⟩ := h; rfl
  case jeq | jne => obtain ⟨ra, -, ⟨-, rfl⟩ | ⟨-, next, -, rfl⟩⟩ := h <;> rfl
  case jmp => obtain ⟨ra, -, rfl⟩ := h; rfl

/-- An instruction other than CMP leaves the flags, whether it has its effect or raises a fault. -/
theorem flags_of_exec {i : Instr} {s t : State} (hexec : exec i s = .next t) (hi : ∀ a b, i ≠ .cmp a b) :
    t.flags = s.flags := by
  obtain hfail | heffect := exec_cases hexec
  · exact hfail.flags
  · exact heffect.flags hi

theorem execAll_cons {i : Instr} {is : List Instr} {s t : State} (h : Expect.execAll (i :: is) s = some t) :
    ∃ u, exec i s = .next u ∧ Expect.execAll is u = some t := by
  obtain ⟨u, hu⟩ := exec_next i s
  exact ⟨u, hu, by simpa [Expect.execAll, hu] using h⟩

theorem flags_of_execAll {is : List Instr} {s t : State} (his : ∀ i ∈ is, ∀ a b, i ≠ .cmp a b)
    (h : Expect.execAll is s = some t) : t.flags = s.flags := by
  induction is generalizing s with
  | nil => cases h; rfl
  | cons i is ih =>
    obtain ⟨hi, his⟩ := List.forall_mem_cons.1 his
    obtain ⟨u, hexec, hrest⟩ := execAll_cons h
    exact (ih his hrest).trans (flags_of_exec hexec hi)

/-! ### What the flags steer -/

/-- The course of JEQ and JNE when the operand, the register and the successor are all there. -/
theorem conditionalJump_ok (taken : Bool) {a : Byte} {s : State} (ha : a.toNat < 8) (hnext : s.pc.toNat + 2 ≤ 255) :
    conditionalJump taken a s =
      s.setPc (if taken then s.reg ⟨a.toNat, ha⟩ else BitVec.ofNat 8 (s.pc.toNat + 2)) := by
  rw [conditionalJump, checkFetch_ok _ (by omega), withRegister_ok _ ha]
  cases taken with
  | true => rfl
  | false => exact withSuccessor_ok _ hnext

theorem exec_jeq_ok {a : Byte} {s : State} (ha : a.toNat < 8) (hnext : s.pc.toNat + 2 ≤ 255) :
    exec (.jeq a) s =
      .next (s.setPc (if s.flags.e then s.reg ⟨a.toNat, ha⟩ else BitVec.ofNat 8 (s.pc.toNat + 2))) :=
  congrArg Host.Outcome.next (conditionalJump_ok s.flags.e ha hnext)

/-- JNE is taken when the Equal flag is clear, so its two targets stand the other way round. -/
theorem exec_jne_ok {a : Byte} {s : State} (ha : a.toNat < 8) (hnext : s.pc.toNat + 2 ≤ 255) :
    exec (.jne a) s =
      .next (s.setPc (if s.flags.e then BitVec.ofNat 8 (s.pc.toNat + 2) else s.reg ⟨a.toNat, ha⟩)) := by
  refine (congrArg Host.Outcome.next (conditionalJump_ok (!s.flags.e) ha hnext)).trans ?_
  cases s.flags.e <;> rfl

/-- Settles O45: no instruction but CMP writes the flags, so no sequence without one does, by induction over it; and JEQ and
JNE go by the Equal flag they find. -/
theorem flagsStayUntilNextCmp : Obligations.FlagsStayUntilNextCmp := by
  refine ⟨fun a b s t h => ?arithmetic, fun is s t his hall => ?sequence⟩
  case arithmetic =>
    obtain hadd | hmul := h
    · exact flags_of_exec hadd (by simp)
    · exact flags_of_exec hmul (by simp)
  case sequence =>
    have hflags : t.flags = s.flags := flags_of_execAll his hall
    refine ⟨hflags, fun a ha hnext => ?_⟩
    rw [← hflags]
    exact ⟨exec_jeq_ok ha hnext, exec_jne_ok ha hnext⟩

end Sys2Proof.Machine
end

section
/-! PROOF. RET, JEQ, JNE and JMP: encoding, both ways and faults (spec `44_control_flow.md` R147 to R150). JMP is the jump
that is always taken, so the three jumps share one course. -/

namespace Sys2Proof.Machine

/-! ### The course of a jump -/

section
variable {i : Instr} {taken : Bool} {a : Byte} {s : State} (hexec : exec i s = .next (conditionalJump taken a s))
include hexec

/-- The faults of JEQ, JNE and JMP (R93): each clause is one failed check, with the earlier ones passed; only a jump that
is not taken uses the successor. -/
theorem checks_conditionalJump : Expect.checks i 1 [a] (!taken) s := by
  refine ⟨fun hfetch => ?overrun, fun r hfetch hbad => ?invalid, fun hfetch hreg huses hnext => ?successor⟩ <;>
    rw [hexec, conditionalJump]
  case overrun => rw [checkFetch_over _ hfetch]; rfl
  case invalid =>
    obtain ⟨ha, rfl⟩ : 7 < a.toNat ∧ a = r := by simpa using hbad
    rw [checkFetch_ok _ hfetch, withRegister_bad _ ha]; rfl
  case successor =>
    have ha : a.toNat < 8 := Nat.lt_succ_of_le (hreg a (List.mem_singleton_self a))
    obtain rfl : taken = false := by simpa using huses
    rw [checkFetch_ok _ hfetch, withRegister_ok _ ha]
    exact congrArg Host.Outcome.next (withSuccessor_over _ hnext)

/-- A taken jump needs its operand byte and its register, but no successor. -/
theorem exec_jump_taken (htaken : taken = true) (ha : a.toNat < 8) (hfetch : s.pc.toNat + 1 ≤ 255) :
    exec i s = .next (s.setPc (s.reg ⟨a.toNat, ha⟩)) := by
  rw [hexec, conditionalJump, checkFetch_ok _ hfetch, withRegister_ok _ ha, if_pos htaken]

theorem exec_jump_notTaken (htaken : taken = false) (ha : a.toNat < 8) (hnext : s.pc.toNat + 2 ≤ 255) :
    exec i s = .next (s.setPc (BitVec.ofNat 8 (s.pc.toNat + 2))) := by
  rw [hexec, conditionalJump_ok taken ha hnext, htaken]; rfl

end

/-! ### The four instructions -/

theorem exec_jeq_eq (a : Byte) (s : State) : exec (.jeq a) s = .next (conditionalJump s.flags.e a s) := rfl

theorem exec_jne_eq (a : Byte) (s : State) : exec (.jne a) s = .next (conditionalJump (!s.flags.e) a s) := rfl

theorem exec_jmp_eq (a : Byte) (s : State) : exec (.jmp a) s = .next (conditionalJump true a s) := rfl

theorem exec_ret_eq (s : State) : exec .ret s = .next (s.incSp.setPc s.loadTop) := rfl

/-- Settles O33: the bytes by the decoder's own law, faults and both ways by the shared course, taken when `E` is set. -/
theorem jeqJumpsWhenEqual : Obligations.JeqJumpsWhenEqual := fun a s =>
  ⟨decode_jeq a [], checks_conditionalJump (exec_jeq_eq a s),
    fun ha hfetch he => exec_jump_taken (exec_jeq_eq a s) he ha hfetch,
    fun ha hnext he => exec_jump_notTaken (exec_jeq_eq a s) he ha hnext⟩

/-- Settles O34: as for JEQ, taken when `E` is clear. -/
theorem jneJumpsWhenNotEqual : Obligations.JneJumpsWhenNotEqual := fun a s =>
  ⟨decode_jne a [], Bool.not_not s.flags.e ▸ checks_conditionalJump (exec_jne_eq a s),
    fun ha hfetch he => exec_jump_taken (exec_jne_eq a s) (by rw [he]; rfl) ha hfetch,
    fun ha hnext he => exec_jump_notTaken (exec_jne_eq a s) (by rw [he]; rfl) ha hnext⟩

/-- Settles O35: the course of a jump that is always taken. -/
theorem jmpJumpsToRegister : Obligations.JmpJumpsToRegister := fun a s =>
  ⟨decode_jmp a [], checks_conditionalJump (exec_jmp_eq a s), fun ha hfetch =>
    exec_jump_taken (exec_jmp_eq a s) rfl ha hfetch⟩

/-- Settles O32: RET makes no check, so its effect, the pop into `pc`, is its whole course. -/
theorem retPopsIntoPc : Obligations.RetPopsIntoPc := fun s => ⟨decode_ret [], exec_ret_eq s⟩

end Sys2Proof.Machine
end

section
/-! PROOF. An opcode byte that is no pattern of the table raises `IllegalOpcode`, and there are 243 such bytes (spec
`60_exceptions.md` R166). -/

namespace Sys2Proof

/-! ### The illegal bytes -/

/-- The patterns of R76, in the order of the table. -/
theorem opcodeTable_map_opcode : opcodeTable.map OpcodeRow.opcode =
    [0x01, 0x82, 0x47, 0xA2, 0xA0, 0xA7, 0x45, 0x46, 0x50, 0x11, 0x55, 0x56, 0x54] := rfl

theorem lookupOpcode_eq_none_iff_notMem {ir : Byte} :
    lookupOpcode ir = none ↔ ir ∉ opcodeTable.map OpcodeRow.opcode := by
  simp [lookupOpcode_none]

/-- The 13 patterns as numbers below 256. -/
def opcodeNumbers : Finset Nat := (opcodeTable.map fun row => row.opcode.toNat).toFinset

theorem opcodeNumbers_card : opcodeNumbers.card = 13 := by decide

theorem opcodeNumbers_subset_range : opcodeNumbers ⊆ Finset.range 256 := by decide

theorem lookupOpcode_ofNat_eq_none_iff {n : Nat} (hn : n < 256) :
    lookupOpcode (BitVec.ofNat 8 n) = none ↔ n ∉ opcodeNumbers := by
  have sameByte (ir : Byte) : ir = BitVec.ofNat 8 n ↔ ir.toNat = n := by
    rw [BitVec.toNat_eq, BitVec.toNat_ofNat, Nat.mod_eq_of_lt hn]
  simp [lookupOpcode_none, opcodeNumbers, sameByte]

theorem filter_illegal_eq_sdiff :
    {n ∈ Finset.range 256 | lookupOpcode (BitVec.ofNat 8 n) = none} = Finset.range 256 \ opcodeNumbers := by
  rw [Finset.sdiff_eq_filter]
  exact Finset.filter_congr fun n hn => lookupOpcode_ofNat_eq_none_iff (Finset.mem_range.1 hn)

/-- The patterns are 13 distinct bytes, so 256 - 13 bytes are illegal. -/
theorem length_filter_illegal :
    ((List.range 256).filter fun n => decide (lookupOpcode (BitVec.ofNat 8 n) = none)).length = 243 :=
  calc _ = {n ∈ Finset.range 256 | lookupOpcode (BitVec.ofNat 8 n) = none}.card := rfl
    _ = 256 - 13 := by
      rw [filter_illegal_eq_sdiff, Finset.card_sdiff_of_subset opcodeNumbers_subset_range, Finset.card_range,
        opcodeNumbers_card]

end Sys2Proof

namespace Sys2Proof.Machine

/-! ### The step that meets one -/

/-- Check 1 fails (R93), whatever bytes follow the opcode. -/
theorem step_eq_raise_of_lookupOpcode_none {s : State} (hrun : s.rs = .running)
    (hnone : lookupOpcode (s.readMem s.pc) = none) : step s = .next (s.raise .illegalOpcode 0) := by
  rw [step_running hrun, cycle, State.fetchWindow_eq, decode_illegalOpcode_iff.2 hnone]
  rfl

/-- Settles O12: a byte outside the 13 patterns selects no row, so check 1 raises the fault; the count is 256 less the
patterns. -/
theorem illegalOpcodeIsFatal : Obligations.IllegalOpcodeIsFatal := by
  refine ⟨fun s hrun hbyte => ?_, length_filter_illegal⟩
  rw [← opcodeTable_map_opcode, ← lookupOpcode_eq_none_iff_notMem] at hbyte
  exact step_eq_raise_of_lookupOpcode_none hrun hbyte

end Sys2Proof.Machine
end

section
/-! PROOF. Where the launch state holds the program image, and what its first cycle does when the image is empty (spec
`70_reset_and_hazards.md` R199). -/

namespace Sys2Proof.Machine

theorem launch_of_length_le {img : List Byte} (h : img.length ≤ 256) (sp fill : Byte) :
    State.launch sp fill img = .ok ((State.resetWith sp fill).placeImage img).start := if_pos h

/-- A cell of the launch state holds the image's byte at its address, or the fill where the image has none. -/
theorem readMem_start_placeImage_resetWith (sp fill : Byte) (img : List Byte) (a : Addr) :
    ((State.resetWith sp fill).placeImage img).start.readMem a = (img[a.toNat]?).getD fill :=
  calc ((State.resetWith sp fill).placeImage img).start.readMem a
    _ = ((Memory.filled fill).writeFrom 0 img).read a := rfl
    _ = (img[a.toNat]?).getD fill := by
      rw [Memory.read_writeFrom, if_pos a.toNat.zero_le, Nat.sub_zero, Memory.read_filled]

/-- Settles O17: both clauses read the launch state's cells; in the second the byte at address 0 is the fill 0x00, which is
no opcode. -/
theorem imageIsPlacedFromAddressZero : Obligations.ImageIsPlacedFromAddressZero := by
  refine ⟨fun sp fill img hlen => ⟨_, launch_of_length_le hlen sp fill, fun a => ⟨fun b hb => ?image, fun ha => ?rest⟩⟩,
    fun sp s hs => ?empty⟩
  case image => rw [readMem_start_placeImage_resetWith, hb, Option.getD_some]
  case rest => rw [readMem_start_placeImage_resetWith, List.getElem?_eq_none ha, Option.getD_none]
  case empty =>
    have hlaunch := launch_of_length_le (img := []) (Nat.zero_le 256) sp 0x00
    obtain rfl := Except.ok.inj (hlaunch.symm.trans hs)
    have hbyte := readMem_start_placeImage_resetWith sp 0x00 [] 0x00
    have hnone : lookupOpcode 0x00 = none := rfl
    exact step_eq_raise_of_lookupOpcode_none rfl ((congrArg lookupOpcode hbyte).trans hnone)

end Sys2Proof.Machine
end

section
/-! PROOF. What a program text gives, line by line (spec `30_encoding.md` R83; `70_reset_and_hazards.md` R198). -/

namespace Sys2Proof.Machine

/-! ### One line -/

theorem parseLine_of_empty {l : List Char} (h : lineContent l = []) : parseLine l = .ok none := if_pos h

/-- What a line that is no error gives: nothing when its content is empty, else the byte of its base-2 value. -/
theorem parseLine_ok {l : List Char} {o : Option Byte} (h : parseLine l = .ok o) :
    (lineContent l = [] ∧ o = none) ∨
      (lineContent l ≠ [] ∧ ∃ b : Byte, o = some b ∧ binaryValue (lineContent l) = some b.toNat) := by
  by_cases hempty : lineContent l = []
  · exact .inl ⟨hempty, Except.ok.inj (h.symm.trans (parseLine_of_empty hempty))⟩
  · rw [parseLine, if_neg hempty] at h
    cases hv : binaryValue (lineContent l) with
    | none => simp [hv] at h
    | some v =>
      by_cases hle : v ≤ 255
      · obtain rfl : some (BitVec.ofNat 8 v) = o := by simpa [hv, hle] using h
        have hbyte : (BitVec.ofNat 8 v).toNat = v := by rw [BitVec.toNat_ofNat]; omega
        exact .inr ⟨hempty, _, rfl, congrArg some hbyte.symm⟩
      · simp [hv, hle] at h

/-! ### A text -/

/-- A text that is no error gives what its first line gives, then what the rest gives. -/
theorem parseLines_cons_ok {l : List Char} {ls : List (List Char)} {img : List Byte}
    (h : parseLines (l :: ls) = .ok img) :
    ∃ o bs, parseLine l = .ok o ∧ parseLines ls = .ok bs ∧ img = o.toList ++ bs := by
  cases hl : parseLine l with
  | error e => simp [parseLines, hl] at h
  | ok o =>
    cases hls : parseLines ls with
    | error e => simp [parseLines, hl, hls] at h
    | ok bs =>
      have himg : .ok (o.toList ++ bs) = parseLines (l :: ls) := by cases o <;> simp [parseLines, hl, hls]
      exact ⟨o, bs, rfl, rfl, (Except.ok.inj (himg.trans h)).symm⟩

theorem parseLines_cons_of_empty {l : List Char} (h : lineContent l = []) (ls : List (List Char)) :
    parseLines (l :: ls) = parseLines ls := by
  rw [parseLines, parseLine_of_empty h]
  cases parseLines ls <;> rfl

theorem parseLines_cons_congr (l : List Char) {ls ls' : List (List Char)} (h : parseLines ls = parseLines ls') :
    parseLines (l :: ls) = parseLines (l :: ls') := by
  rw [parseLines, parseLines, h]

theorem parseLines_filter_nonempty (ls : List (List Char)) :
    parseLines (ls.filter fun l => decide (lineContent l ≠ [])) = parseLines ls := by
  induction ls with
  | nil => rfl
  | cons l ls ih =>
    by_cases hempty : lineContent l = []
    · rw [List.filter_cons_of_neg (by simpa using hempty), ih, parseLines_cons_of_empty hempty]
    · rw [List.filter_cons_of_pos (by simpa using hempty)]
      exact parseLines_cons_congr l ih

theorem values_of_parseLines {ls : List (List Char)} {img : List Byte} (h : parseLines ls = .ok img) :
    img.map (fun b => some b.toNat) =
      (ls.map lineContent).filterMap fun c => if c = [] then none else some (binaryValue c) := by
  induction ls generalizing img with
  | nil => cases h; rfl
  | cons l ls ih =>
    obtain ⟨o, bs, hl, hls, rfl⟩ := parseLines_cons_ok h
    obtain ⟨hempty, rfl⟩ | ⟨hne, b, rfl, hvalue⟩ := parseLine_ok hl
    · simp [hempty, ih hls]
    · simp [hne, hvalue, ih hls]

/-! ### The image -/

theorem loadImage_ok {ls : List (List Char)} {img : List Byte} (h : loadImage (some ls) = .ok img) :
    parseLines ls = .ok img := by
  cases hls : parseLines ls with
  | error e => simp [loadImage, hls] at h
  | ok bs =>
    by_cases hlen : bs.length ≤ Config.memSize
    · simpa [loadImage, hls, hlen] using h
    · simp [loadImage, hls, hlen] at h

/-- The image depends on the lines only through what they parse to. -/
theorem loadImage_congr {ls ls' : List (List Char)} (h : parseLines ls = parseLines ls') :
    loadImage (some ls) = loadImage (some ls') := by
  rw [loadImage, loadImage, h]

/-- Settles O19: the values by induction on the lines, each giving nothing or its own byte; and stripping the lines whose
content is empty leaves what the text parses to, error or bytes. -/
theorem commentAndBlankLinesDoNotCount : Obligations.CommentAndBlankLinesDoNotCount :=
  ⟨fun _ _ h => values_of_parseLines (loadImage_ok h), fun ls => loadImage_congr (parseLines_filter_nonempty ls).symm⟩

end Sys2Proof.Machine
end

section
/-! PROOF. Decoding and encoding are exact inverses, and only the 13 patterns decode (spec `30_encoding.md` sections 1 to
3). -/

namespace Sys2Proof

/-- The bytes of an instruction are the pattern of its row and as many operand bytes as the row has. -/
theorem encode_build {row : OpcodeRow} (h : row ∈ opcodeTable) (a b : Byte) :
    encode (row.build a b) = row.opcode :: [a, b].take row.operands := by
  have allRows : ∀ r ∈ opcodeTable, encode (r.build a b) = r.opcode :: [a, b].take r.operands := by
    simp [opcodeTable, encode]
  exact allRows row h

/-- The operand bytes a row takes and the bytes it leaves are all the bytes after the opcode. -/
theorem operandBytes_append_drop {bs : List Byte} {n : Nat} (hn : n ≤ 2) (hlen : n ≤ bs.length) :
    [bs.getD 0 0, bs.getD 1 0].take n ++ bs.drop n = bs :=
  match n, bs with
  | 0, _ => rfl
  | 1, _ :: _ => rfl
  | 2, _ :: _ :: _ => rfl

theorem eq_encode_append_of_decode {bs rest : List Byte} {i : Instr} (h : decode bs = .ok (i, rest)) :
    bs = encode i ++ rest := by
  cases bs with
  | nil => cases h
  | cons ir bs =>
    obtain ⟨row, hrow, hlen, rfl, rfl⟩ := decode_ok h
    obtain ⟨hmem, rfl⟩ := lookupOpcode_some hrow
    rw [encode_build hmem, List.cons_append, operandBytes_append_drop (operands_le_two row hmem) hlen]

/-- Settles O2: what decodes is the row's pattern, the operand bytes it takes and the bytes it leaves; and the bytes of
every instruction decode back to it whatever follows. -/
theorem decodeInvertsEncodeExactly : Obligations.DecodeInvertsEncodeExactly := by
  refine fun bs rest i => ⟨eq_encode_append_of_decode, ?_⟩
  rintro rfl
  exact decode_encode_append i rest

/-- Settles O1: the words by the decoder's law of each instruction; a decode uses a row of the table, and the opcode byte
is that row's pattern. -/
theorem opcodeTableWords : Obligations.OpcodeTableWords := by
  refine ⟨fun a b => ⟨decode_hlt [], decode_ldi a b [], decode_prn a [], decode_mul a b [], decode_add a b [],
    decode_cmp a b [], decode_push a [], decode_pop a [], decode_call a [], decode_ret [], decode_jeq a [],
    decode_jne a [], decode_jmp a []⟩, fun ir bs i rest h => ?_⟩
  obtain ⟨row, hrow, -⟩ := decode_ok h
  obtain ⟨hmem, rfl⟩ := lookupOpcode_some hrow
  rw [← opcodeTable_map_opcode]
  exact List.mem_map_of_mem hmem

end Sys2Proof
end

section
/-! PROOF. Every step keeps the machine's invariant, and what a record of a fault says (spec `10_state.md` sections 4 to 6;
`60_exceptions.md` sections 1 to 4). -/

namespace Sys2Proof.Machine

/-! ### What an instruction leaves in memory -/

/-- Of all effects, only those of PUSH and CALL write memory. -/
theorem Effect.mem {s t : State} {i : Instr} (h : Effect s t i) (hpush : ∀ a, i ≠ .push a) (hcall : ∀ a, i ≠ .call a) :
    t.mem = s.mem := by
  cases i
  case push a => exact absurd rfl (hpush a)
  case call a => exact absurd rfl (hcall a)
  case hlt | ret => cases h; rfl
  case ldi | prn | pop => obtain ⟨ra, next, -, -, rfl⟩ := h; rfl
  case mul | add | cmp => obtain ⟨ra, rb, next, -, -, -, rfl⟩ := h; rfl
  case jeq | jne => obtain ⟨ra, -, ⟨-, rfl⟩ | ⟨-, next, -, rfl⟩⟩ := h <;> rfl
  case jmp => obtain ⟨ra, -, rfl⟩ := h; rfl

/-- PUSH and CALL write one byte, at the decremented stack pointer. -/
theorem Effect.mem_of_store {s t : State} {i : Instr} {a : Byte} (h : Effect s t i) (hi : i = .push a ∨ i = .call a) :
    ∃ v, t.mem = s.mem.write s.decSp.sp v := by
  obtain rfl | rfl := hi
  · obtain ⟨ra, next, -, -, rfl⟩ := h
    exact ⟨_, rfl⟩
  · obtain ⟨ra, next, -, -, rfl⟩ := h
    exact ⟨_, rfl⟩

theorem CheckFailed.mem {s t : State} (h : CheckFailed s t) : t.mem = s.mem := by
  obtain ⟨c, o, -, rfl⟩ := h.eq_raise
  rfl

/-- An instruction leaves memory as it is or writes one byte, at the decremented stack pointer. -/
theorem mem_of_exec {i : Instr} {s t : State} (hexec : exec i s = .next t) :
    t.mem = s.mem ∨ ((∃ a, i = .push a ∨ i = .call a) ∧ ∃ v, t.mem = s.mem.write s.decSp.sp v) := by
  obtain hfail | heffect := exec_cases hexec
  · exact .inl hfail.mem
  · by_cases hstore : ∃ a, i = .push a ∨ i = .call a
    · obtain ⟨a, hi⟩ := hstore
      exact .inr ⟨⟨a, hi⟩, heffect.mem_of_store hi⟩
    · exact .inl (heffect.mem (fun a hi => hstore ⟨a, .inl hi⟩) fun a hi => hstore ⟨a, .inr hi⟩)

theorem exec_keeps_wf {i : Instr} {s t : State} (hwf : s.mem.wf) (hexec : exec i s = .next t) : t.mem.wf := by
  obtain hmem | ⟨-, v, hmem⟩ := mem_of_exec hexec
  · rwa [hmem]
  · rw [hmem]
    exact Memory.write_wf hwf _ v

/-! ### The flags -/

theorem compareFlags_legal (va vb : Byte) : (compareFlags va vb).legal := by
  obtain h | h | h := lt_trichotomy va.toNat vb.toNat
  · exact .inr (.inr (.inl (compareFlags_of_lt h)))
  · exact .inr (.inl (compareFlags_of_eq h))
  · exact .inr (.inr (.inr (compareFlags_of_gt h)))

theorem exec_keeps_legal {i : Instr} {s t : State} (hlegal : s.flags.legal) (hexec : exec i s = .next t) :
    t.flags.legal := by
  by_cases hcmp : ∃ a b, i = .cmp a b
  · obtain ⟨a, b, rfl⟩ := hcmp
    obtain hfail | ⟨ra, rb, next, -, -, -, rfl⟩ := exec_cases hexec
    · rwa [hfail.flags]
    · exact compareFlags_legal _ _
  · rwa [flags_of_exec hexec fun a b hi => hcmp ⟨a, b, hi⟩]

/-! ### The fault record -/

/-- The fault of a failed decode, and of a failed check of a decoded instruction, explains itself. -/
theorem step_faulted_explains {s t : State} (hstep : step s = .next t) (hfaulted : t.rs = .faulted) :
    ∃ c o, t = s.raise c o ∧ t.fault.explains s := by
  obtain ⟨hrun, ⟨i, rest, hdecode, hexec⟩ | ⟨e, hdecode, rfl⟩⟩ := step_cases hstep <;>
    rw [State.fetchWindow_eq] at hdecode
  · obtain ⟨row, hrow, -⟩ := decode_ok hdecode
    have hlegal : (lookupOpcode (s.readMem s.pc)).isSome := Option.isSome_of_eq_some hrow
    obtain ⟨c, o, rfl, hcause⟩ | heffect := exec_cases hexec
    · refine ⟨c, o, rfl, rfl, rfl, .inr ?_⟩
      exact hcause.imp (fun ⟨hc, ho⟩ => ⟨hc, hlegal, ho⟩)
        (Or.imp (fun ⟨hc, ho⟩ => ⟨hc, hlegal, ho⟩) fun ⟨hc, ho⟩ => ⟨hc, hlegal, ho⟩)
    · obtain ⟨hrs, -⟩ := heffect.rs_fault
      rw [hfaulted, hrun] at hrs
      split at hrs <;> cases hrs
  · obtain ⟨rfl, hnone⟩ | ⟨rfl, row, hrow, -⟩ := decode_error hdecode
    · exact ⟨_, _, rfl, rfl, rfl, .inl ⟨rfl, hnone, rfl⟩⟩
    · exact ⟨_, _, rfl, rfl, rfl, .inr (.inl ⟨rfl, Option.isSome_of_eq_some hrow, rfl⟩)⟩

theorem step_fault_of_not_faulted {s t : State} (hstep : step s = .next t) (hrs : t.rs ≠ .faulted) :
    t.fault = s.fault := by
  obtain ⟨c, o, -, rfl⟩ | ⟨-, -, hfault⟩ | ⟨-, hfault⟩ := step_outcome hstep
  · exact absurd rfl hrs
  · exact hfault
  · exact hfault

/-! ### The invariant -/

/-- A step runs the decoded instruction, or raises a fault and changes neither registers, flags, memory nor output. -/
theorem step_exec_or_raise {s t : State} (hstep : step s = .next t) :
    (∃ i rest, decode s.fetchWindow = .ok (i, rest) ∧ exec i s = .next t) ∨ ∃ c, t = s.raise c 0 := by
  obtain ⟨-, hdecoded | ⟨e, -, rfl⟩⟩ := step_cases hstep
  · exact .inl hdecoded
  · obtain ⟨c, -, heq⟩ := decodeFault_eq_raise e s
    exact .inr ⟨c, heq⟩

theorem step_keeps_wf {s t : State} (hwf : s.mem.wf) (hstep : step s = .next t) : t.mem.wf := by
  obtain ⟨i, rest, -, hexec⟩ | ⟨c, rfl⟩ := step_exec_or_raise hstep
  · exact exec_keeps_wf hwf hexec
  · exact hwf

theorem step_keeps_legal {s t : State} (hlegal : s.flags.legal) (hstep : step s = .next t) : t.flags.legal := by
  obtain ⟨i, rest, -, hexec⟩ | ⟨c, rfl⟩ := step_exec_or_raise hstep
  · exact exec_keeps_legal hlegal hexec
  · exact hlegal

/-- Settles O52, a clause at a time: a step writes at most one byte of memory; only CMP writes flags, and it sets exactly
one; the record stays empty while no fault is raised; and a raised fault explains itself, at the state it leaves as at
the one before, since it changes neither `pc` nor memory. -/
theorem stepKeepsInvariant : Obligations.StepKeepsInvariant := by
  intro s t hinv hstep
  have hrun : s.rs = .running := (step_cases hstep).1
  refine ⟨step_keeps_wf hinv.memory hstep, step_keeps_legal hinv.flags hstep, fun hrs => ?empty, fun hrs => ?explains⟩
  case empty =>
    rw [step_fault_of_not_faulted hstep hrs]
    exact hinv.noRecord (by simp [hrun])
  case explains =>
    obtain ⟨c, o, rfl, hexplains⟩ := step_faulted_explains hstep hrs
    exact hexplains

/-- The causes that can explain a fault have codes 1 to 4, and only code 3 comes with an operand. -/
theorem FaultRecord.explains.code {f : FaultRecord} {s : State} (h : f.explains s) :
    1 ≤ f.cause.code ∧ f.cause.code ≤ 4 ∧
      (f.cause.code = 3 → 7 < f.operand.toNat) ∧ (f.cause.code ≠ 3 → f.operand = 0) := by
  obtain ⟨-, -, ⟨hc, -, ho⟩ | ⟨hc, -, ho⟩ | ⟨hc, -, ho⟩ | ⟨hc, -, ho⟩⟩ := h <;> simp [hc, ho, FaultCause.code]

/-- Settles O15: the record of a fault that a step raised explains it, and each cause that can stand there has its code. -/
theorem faultRecordContents : Obligations.FaultRecordContents := by
  intro s t hstep hrs
  obtain ⟨c, o, -, hexplains⟩ := step_faulted_explains hstep hrs
  have hcode := hexplains.code
  obtain ⟨haddr, hir, -⟩ := hexplains
  exact ⟨haddr, hir, hcode⟩

/-- The state after reset meets the invariant for any stack origin and fill. -/
theorem resetWith_inv (sp fill : Byte) : (State.resetWith sp fill).Inv where
  memory := Memory.filled_wf fill
  flags := .inl rfl
  noRecord _ := rfl
  record h := by cases h

theorem reset_eq_resetWith : State.reset = State.resetWith Config.spReset Config.memFill := rfl

/-- Settles O50: `State.reset` is the reset with the default parameters. -/
theorem resetMeetsInvariant : Obligations.ResetMeetsInvariant := by
  unfold Obligations.ResetMeetsInvariant
  rw [reset_eq_resetWith]
  exact resetWith_inv _ _

theorem launch_ok {sp fill : Byte} {img : List Byte} {s : State} (h : State.launch sp fill img = .ok s) :
    s = ((State.resetWith sp fill).placeImage img).start := by
  by_cases hlen : img.length ≤ 256
  · exact Except.ok.inj (h.symm.trans (launch_of_length_le hlen sp fill))
  · simp [State.launch, Config.memSize, hlen] at h

/-- Settles O51: placing the image keeps the canonical form of the filled memory, and the rest is as after reset. -/
theorem launchMeetsInvariant : Obligations.LaunchMeetsInvariant := by
  intro sp fill img s hlaunch
  obtain rfl := launch_ok hlaunch
  exact ⟨State.placeImage_wf (resetWith_inv sp fill).memory img, .inl rfl, fun _ => rfl, fun h => by cases h⟩

end Sys2Proof.Machine
end

section
/-! PROOF. What each instruction leaves unchanged, a component at a time, and which instructions alone may change it (spec
`10_state.md` sections 2 to 6; the frames of `41_data_movement.md` to `44_control_flow.md`). -/

namespace Sys2Proof

/-- The registers an instruction may write: the one it names as its destination, and `x[7]` where it moves the stack
pointer. -/
def Instr.writtenRegisters : Instr → List Nat
  | .ldi a _ | .mul a _ | .add a _ => [a.toNat]
  | .pop a => [a.toNat, 7]
  | .push _ | .call _ | .ret => [7]
  | .hlt | .prn _ | .cmp _ _ | .jeq _ | .jne _ | .jmp _ => []

end Sys2Proof

namespace Sys2Proof.Machine

/-! ### A raised fault -/

theorem CheckFailed.eq_faulted {s t : State} (h : CheckFailed s t) : ∃ c o, t = Expect.faulted s c o := by
  obtain ⟨c, o, -, rfl⟩ := h.eq_raise
  exact ⟨c, o, rfl⟩

theorem CheckFailed.reg {s t : State} (h : CheckFailed s t) (r : RegNum) : t.reg r = s.reg r := by
  obtain ⟨c, o, -, rfl⟩ := h.eq_raise
  rfl

theorem CheckFailed.out {s t : State} (h : CheckFailed s t) : t.out = s.out := by
  obtain ⟨c, o, -, rfl⟩ := h.eq_raise
  rfl

/-- An instruction other than HLT keeps run state and record, or it raises a fault and nothing else happens. -/
theorem systemFrame_of_exec {i : Instr} {s t : State} (hexec : exec i s = .next t) (hi : i ≠ .hlt) :
    Expect.systemFrame s t := by
  obtain hfail | heffect := exec_cases hexec
  · exact .inr hfail.eq_faulted
  · obtain ⟨hrs, hfault⟩ := heffect.rs_fault
    exact .inl ⟨by rw [hrs, if_neg hi], hfault⟩

/-! ### Registers -/

theorem State.reg_setReg_of_val_ne {s : State} {r q : RegNum} {v : Byte} (h : q.val ≠ r.val) :
    (s.setReg r v).reg q = s.reg q :=
  s.reg_setReg_ne v fun e => h (congrArg Fin.val e)

theorem State.reg_decSp_of_val_ne {s : State} {q : RegNum} (h : q.val ≠ 7) : s.decSp.reg q = s.reg q :=
  State.reg_setReg_of_val_ne h

theorem State.reg_incSp_of_val_ne {s : State} {q : RegNum} (h : q.val ≠ 7) : s.incSp.reg q = s.reg q :=
  State.reg_setReg_of_val_ne h

theorem Effect.keepsRegisters {s t : State} {i : Instr} (h : Effect s t i) :
    Expect.keepsRegisters s t i.writtenRegisters := by
  intro r hr
  cases i
  case hlt => cases h; rfl
  case prn => obtain ⟨ra, next, -, -, rfl⟩ := h; rfl
  case cmp => obtain ⟨ra, rb, next, -, -, -, rfl⟩ := h; rfl
  case jeq | jne => obtain ⟨ra, -, ⟨-, rfl⟩ | ⟨-, next, -, rfl⟩⟩ := h <;> rfl
  case jmp => obtain ⟨ra, -, rfl⟩ := h; rfl
  case ret =>
    cases h
    exact State.reg_incSp_of_val_ne (List.ne_of_not_mem_cons hr)
  case push | call =>
    obtain ⟨ra, next, -, -, rfl⟩ := h
    exact State.reg_decSp_of_val_ne (List.ne_of_not_mem_cons hr)
  case ldi =>
    obtain ⟨ra, next, hra, -, rfl⟩ := h
    exact State.reg_setReg_of_val_ne (hra ▸ List.ne_of_not_mem_cons hr)
  case mul | add =>
    obtain ⟨ra, rb, next, hra, -, -, rfl⟩ := h
    exact State.reg_setReg_of_val_ne (hra ▸ List.ne_of_not_mem_cons hr)
  case pop =>
    obtain ⟨ra, next, hra, -, rfl⟩ := h
    obtain ⟨hdest, hsp⟩ : r.val ≠ ra.val ∧ r.val ≠ 7 := by simpa [Instr.writtenRegisters, hra] using hr
    exact (State.reg_incSp_of_val_ne hsp).trans (State.reg_setReg_of_val_ne hdest)

theorem keepsRegisters_of_exec {i : Instr} {s t : State} (hexec : exec i s = .next t) :
    Expect.keepsRegisters s t i.writtenRegisters := by
  obtain hfail | heffect := exec_cases hexec
  · exact fun r _ => hfail.reg r
  · exact heffect.keepsRegisters

/-! ### Output -/

theorem Effect.out {s t : State} {i : Instr} (h : Effect s t i) (hi : ∀ a, i ≠ .prn a) : t.out = s.out := by
  cases i
  case prn a => exact absurd rfl (hi a)
  case hlt | ret => cases h; rfl
  case ldi | push | pop | call => obtain ⟨ra, next, -, -, rfl⟩ := h; rfl
  case mul | add | cmp => obtain ⟨ra, rb, next, -, -, -, rfl⟩ := h; rfl
  case jeq | jne => obtain ⟨ra, -, ⟨-, rfl⟩ | ⟨-, next, -, rfl⟩⟩ := h <;> rfl
  case jmp => obtain ⟨ra, -, rfl⟩ := h; rfl

/-- An instruction leaves the output as it is, or it is a PRN and appends the value of its register. -/
theorem out_of_exec {i : Instr} {s t : State} (hexec : exec i s = .next t) :
    t.out = s.out ∨ ∃ (a : Byte) (ha : a.toNat < 8), i = .prn a ∧ t.out = s.out ++ [s.reg ⟨a.toNat, ha⟩] := by
  obtain hfail | heffect := exec_cases hexec
  · exact .inl hfail.out
  · by_cases hprn : ∃ a, i = .prn a
    · obtain ⟨a, rfl⟩ := hprn
      obtain ⟨ra, next, hra, -, rfl⟩ := heffect
      have ha : a.toNat < 8 := hra ▸ ra.isLt
      obtain rfl : ra = ⟨a.toNat, ha⟩ := Fin.ext hra
      exact .inr ⟨a, ha, rfl, rfl⟩
    · exact .inl (heffect.out fun a hi => hprn ⟨a, hi⟩)

theorem out_of_exec_of_ne_prn {i : Instr} {s t : State} (hexec : exec i s = .next t) (hi : ∀ a, i ≠ .prn a) :
    t.out = s.out := by
  obtain hout | ⟨a, -, rfl, -⟩ := out_of_exec hexec
  · exact hout
  · exact absurd rfl (hi a)

/-- The output grows by at most one value, at its end. -/
theorem out_grows_of_exec {i : Instr} {s t : State} (hexec : exec i s = .next t) :
    s.out <+: t.out ∧ t.out.length ≤ s.out.length + 1 := by
  obtain hout | ⟨a, ha, -, hout⟩ := out_of_exec hexec <;> rw [hout]
  · exact ⟨List.prefix_rfl, Nat.le_succ _⟩
  · exact ⟨List.prefix_append _ _, by simp⟩

/-! ### Memory -/

theorem keepsMemory_of_exec {i : Instr} {s t : State} (hexec : exec i s = .next t)
    (hi : ∀ a, i ≠ .push a ∧ i ≠ .call a) : Expect.keepsMemory s t := by
  intro q
  obtain hmem | ⟨⟨a, hstore⟩, -⟩ := mem_of_exec hexec
  · rw [State.readMem_eq, State.readMem_eq, hmem]
  · exact absurd hstore (not_or.2 (hi a))

/-- Every cell but the one at the decremented stack pointer reads as before. -/
theorem readMem_of_exec {i : Instr} {s t : State} (hexec : exec i s = .next t) {q : Addr} (hq : q ≠ s.decSp.sp) :
    t.readMem q = s.readMem q := by
  rw [State.readMem_eq, State.readMem_eq]
  obtain hmem | ⟨-, v, hmem⟩ := mem_of_exec hexec <;> rw [hmem]
  exact Memory.read_write_ne _ v hq

/-! ### The frames of the instructions -/

/-- Settles O37: LDI, MUL and ADD write one register, the one they name. -/
theorem frameOfRegisterWriters : Obligations.FrameOfRegisterWriters := by
  intro a b i s t hi hexec
  have hregs := keepsRegisters_of_exec hexec
  obtain rfl | rfl | rfl := hi <;>
    exact ⟨hregs, flags_of_exec hexec (by simp), keepsMemory_of_exec hexec (by simp),
      out_of_exec_of_ne_prn hexec (by simp), systemFrame_of_exec hexec (by simp)⟩

/-- Settles O38: none of the six writes a register or memory; the flags, the output and the run state each have one writer
among them. -/
theorem frameOfNonWriters : Obligations.FrameOfNonWriters := by
  intro a b i s t hi hexec
  have hregs : Expect.keepsRegisters s t [] := by
    obtain rfl | rfl | rfl | rfl | rfl | rfl := hi <;> exact keepsRegisters_of_exec hexec
  have hmem : Expect.keepsMemory s t :=
    keepsMemory_of_exec hexec fun c => by constructor <;> rintro rfl <;> simp at hi
  have hflags : i ≠ .cmp a b → t.flags = s.flags := fun hne =>
    flags_of_exec hexec fun c d => by rintro rfl; exact hne (by simpa using hi)
  have hout : i ≠ .prn a → t.out = s.out := fun hne =>
    out_of_exec_of_ne_prn hexec fun c => by rintro rfl; exact hne (by simpa using hi)
  obtain ⟨hgrows, hlength⟩ := out_grows_of_exec hexec
  refine ⟨hregs, hmem, hflags, hout, hgrows, hlength, systemFrame_of_exec hexec, ?_⟩
  rintro rfl
  cases hexec
  exact ⟨rfl, rfl, rfl⟩

/-- Settles O39: PUSH and CALL write `x[7]` and the cell at the decremented stack pointer. -/
theorem frameOfStores : Obligations.FrameOfStores := by
  intro a i s t hi hexec
  have hregs := keepsRegisters_of_exec hexec
  have hcells : ∀ d : Addr, s.decSp.sp = d → ∀ q : Addr, q ≠ d → t.readMem q = s.readMem q := by
    rintro _ rfl q hq
    exact readMem_of_exec hexec hq
  obtain rfl | rfl := hi <;>
    exact ⟨hregs, flags_of_exec hexec (by simp), out_of_exec_of_ne_prn hexec (by simp),
      systemFrame_of_exec hexec (by simp), hcells⟩

/-- Settles O40: POP writes its register and `x[7]`, RET `x[7]` only; RET makes no check, so it raises no fault. -/
theorem frameOfPops : Obligations.FrameOfPops := by
  intro a s t
  refine ⟨keepsRegisters_of_exec, fun hret => ⟨keepsRegisters_of_exec hret, ?_⟩, fun h => ?_⟩
  · cases hret
    exact ⟨rfl, rfl⟩
  · obtain hexec | hexec := h <;>
      exact ⟨flags_of_exec hexec (by simp), keepsMemory_of_exec hexec (by simp),
        out_of_exec_of_ne_prn hexec (by simp), systemFrame_of_exec hexec (by simp)⟩

/-! ### What only some instructions do, over every step -/

/-- Which instructions may write a register: those that name it as their destination, and for `x[7]` those that move the
stack pointer. -/
theorem writer_of_mem_writtenRegisters {i : Instr} {r : RegNum} (h : r.val ∈ i.writtenRegisters) :
    (∃ a b : Byte, a.toNat = r.val ∧ (i = .ldi a b ∨ i = .mul a b ∨ i = .add a b ∨ i = .pop a)) ∨
      (r = 7 ∧ ((∃ a : Byte, i = .push a ∨ i = .pop a ∨ i = .call a) ∨ i = .ret)) := by
  cases i
  case ldi a b => exact .inl ⟨a, b, (List.mem_singleton.1 h).symm, .inl rfl⟩
  case mul a b => exact .inl ⟨a, b, (List.mem_singleton.1 h).symm, .inr (.inl rfl)⟩
  case add a b => exact .inl ⟨a, b, (List.mem_singleton.1 h).symm, .inr (.inr (.inl rfl))⟩
  case pop a =>
    obtain hdest | hsp := List.mem_pair.1 h
    · exact .inl ⟨a, 0, hdest.symm, .inr (.inr (.inr rfl))⟩
    · exact .inr ⟨Fin.ext hsp, .inl ⟨a, .inr (.inl rfl)⟩⟩
  case push a => exact .inr ⟨Fin.ext (List.mem_singleton.1 h), .inl ⟨a, .inl rfl⟩⟩
  case call a => exact .inr ⟨Fin.ext (List.mem_singleton.1 h), .inl ⟨a, .inr (.inr rfl)⟩⟩
  case ret => exact .inr ⟨Fin.ext (List.mem_singleton.1 h), .inr rfl⟩
  case hlt | prn | cmp | jeq | jne | jmp => cases h

/-- Settles O41: a register that a step changed is one of those the instruction may write. -/
theorem registerWriters : Obligations.RegisterWriters := by
  intro s t r hstep hchanged
  obtain ⟨i, rest, hdecode, hexec⟩ | ⟨c, rfl⟩ := step_exec_or_raise hstep
  · have hwritten : r.val ∈ i.writtenRegisters := by
      by_contra hr
      exact hchanged (keepsRegisters_of_exec hexec r hr)
    exact ⟨i, rest, hdecode, writer_of_mem_writtenRegisters hwritten⟩
  · exact absurd rfl hchanged

theorem outPort_of_out_eq {s t : State} (h : t.out = s.out) : outPort s t = none := by
  simp [outPort, h]

theorem outPort_of_out_append {s t : State} {v : Byte} (h : t.out = s.out ++ [v]) : outPort s t = some v := by
  simp [outPort, h]

/-- The output after a step is the one before and what the out port carries. -/
theorem out_eq_append_outPort {s t : State} (hstep : step s = .next t) : t.out = s.out ++ (outPort s t).toList := by
  obtain ⟨i, rest, -, hexec⟩ | ⟨c, rfl⟩ := step_exec_or_raise hstep
  · obtain hout | ⟨a, ha, -, hout⟩ := out_of_exec hexec
    · rw [outPort_of_out_eq hout, hout]; exact (List.append_nil _).symm
    · rw [outPort_of_out_append hout, hout]; rfl
  · rw [outPort_of_out_eq (State.raise_out s c 0)]; exact (List.append_nil _).symm

/-- Settles O42: each of the three components has its own writers among the instructions, and a failed decode changes none
of them. -/
theorem flagMemoryAndOutputWriters : Obligations.FlagMemoryAndOutputWriters := by
  intro s t hstep
  obtain ⟨i, rest, hdecode, hexec⟩ | ⟨c, rfl⟩ := step_exec_or_raise hstep
  case inr => exact ⟨fun h => absurd rfl h, fun q h => absurd rfl h, fun h => absurd rfl h, out_eq_append_outPort hstep⟩
  refine ⟨fun hflags => ?flags, fun q hq => ?memory, fun hne => ?output, out_eq_append_outPort hstep⟩
  case flags =>
    by_contra hnone
    exact hflags (flags_of_exec hexec fun a b hi => hnone ⟨a, b, rest, hi ▸ hdecode⟩)
  case memory =>
    have haddr : q = s.decSp.sp := by
      by_contra hne
      exact hq (readMem_of_exec hexec hne)
    obtain hmem | ⟨⟨a, hi⟩, -⟩ := mem_of_exec hexec
    · exact absurd (congrArg (Memory.read · q) hmem) hq
    · refine ⟨haddr.trans s.sp_decSp, a, rest, ?_⟩
      obtain rfl | rfl := hi
      · exact .inl hdecode
      · exact .inr hdecode
  case output =>
    obtain hout | ⟨a, ha, rfl, hout⟩ := out_of_exec hexec
    · exact absurd hout hne
    · exact ⟨a, ha, rest, hdecode, hout⟩

end Sys2Proof.Machine
end

section
/-! PROOF. PRN, CMP, PUSH, POP, CALL and HLT: encoding, effect and faults (spec `41_data_movement.md` R111; `42_alu.md` R124;
`43_stack.md` R136, R137; `44_control_flow.md` R146; `40_cycle_and_halt.md` R99), from the shared courses. -/

namespace Sys2Proof.Machine

/-! ### PRN and HLT -/

theorem exec_prn_eq (a : Byte) (s : State) : exec (.prn a) s =
    .next (checkFetch 1 s <| withRegister a s fun ra => withSuccessor 2 s fun next => (s.emit (s.reg ra)).setPc next) := rfl

/-- Settles O25: the bytes by the decoder's own law, faults and effect by the course that LDI has too. -/
theorem prnEmitsRegister : Obligations.PrnEmitsRegister := fun a s =>
  ⟨decode_prn a [], checks_oneRegister (exec_prn_eq a s), exec_oneRegister_ok (exec_prn_eq a s)⟩

theorem exec_hlt_eq (s : State) : exec .hlt s = .next s.halt := rfl

/-- Settles O36: HLT makes no check, so halting is its whole course. -/
theorem hltHalts : Obligations.HltHalts := fun s => ⟨decode_hlt [], exec_hlt_eq s⟩

/-! ### CMP -/

theorem exec_cmp_eq (a b : Byte) (s : State) : exec (.cmp a b) s = .next (aluInstruction .cmp a b s) := rfl

/-- The trio of CMP with the relations as the statement writes them. -/
theorem compareFlags_eq (va vb : Byte) :
    compareFlags va vb = ⟨decide (va = vb), decide (va.toNat < vb.toNat), decide (vb.toNat < va.toNat)⟩ := by
  simp only [compareFlags, BitVec.toNat_inj, gt_iff_lt]

/-- Settles O28: faults and effect by the course of the ALU instructions, whose answer is here the trio. -/
theorem cmpWritesFlagsOnly : Obligations.CmpWritesFlagsOnly := by
  refine fun a b s => ⟨decode_cmp a b [], checks_aluInstruction (exec_cmp_eq a b s), fun ha hb hnext => ?_⟩
  rw [exec_cmp_eq, aluInstruction_ok .cmp ha hb hnext, ← compareFlags_eq]
  rfl

/-! ### PUSH, POP and CALL -/

theorem exec_push_eq (a : Byte) (s : State) : exec (.push a) s =
    .next (checkFetch 1 s <| withRegister a s fun ra => withSuccessor 2 s fun next =>
      (s.decSp.storeTop (s.decSp.reg ra)).setPc next) := rfl

theorem exec_pop_eq (a : Byte) (s : State) : exec (.pop a) s =
    .next (checkFetch 1 s <| withRegister a s fun ra => withSuccessor 2 s fun next =>
      ((s.setReg ra s.loadTop).incSp).setPc next) := rfl

theorem exec_call_eq (a : Byte) (s : State) : exec (.call a) s =
    .next (checkFetch 1 s <| withRegister a s fun ra => withSuccessor 2 s fun next =>
      (s.decSp.storeTop next).setPc (s.decSp.reg ra)) := rfl

/-- A register read after the decrement, by its operand byte. -/
theorem reg_decSp_operand (s : State) {a : Byte} (ha : a.toNat < 8) :
    s.decSp.reg ⟨a.toNat, ha⟩ = if a.toNat = 7 then s.reg 7 - 1 else s.reg ⟨a.toNat, ha⟩ := by
  rw [State.reg_decSp, State.sp_eq]
  exact if_congr Fin.ext_iff rfl rfl

/-- The register file after a POP: for `r7` the increment is of the byte just loaded. -/
theorem x_setReg_incSp (s : State) {a : Byte} (ha : a.toNat < 8) (v : Byte) :
    (s.setReg ⟨a.toNat, ha⟩ v).incSp.x =
      if a.toNat = 7 then s.x.set 7 (v + 1) else (s.x.set a.toNat v).set 7 (s.reg 7 + 1) := by
  rw [State.incSp_x, State.setReg_x, State.sp_eq, State.reg_setReg]
  by_cases h7 : a.toNat = 7
  · have hsp : (7 : RegNum) = ⟨a.toNat, ha⟩ := Fin.ext h7.symm
    rw [if_pos h7, if_pos hsp]
    simp only [h7]
    exact Vector.set_set ..
  · have hsp : (7 : RegNum) ≠ ⟨a.toNat, ha⟩ := fun h => h7 (congrArg Fin.val h).symm
    rw [if_neg h7, if_neg hsp]

/-- Settles O29: the shared course; the byte stored is the register read after the decrement. -/
theorem pushStoresBelowStackPointer : Obligations.PushStoresBelowStackPointer := by
  refine fun a s => ⟨decode_push a [], checks_oneRegister (exec_push_eq a s), fun ha hnext => ?_⟩
  rw [exec_oneRegister_ok (exec_push_eq a s) ha hnext, reg_decSp_operand]
  simp only [State.storeTop, State.sp_decSp]
  rfl

/-- Settles O30: the shared course; the register is loaded before the increment. -/
theorem popLoadsFromStackPointer : Obligations.PopLoadsFromStackPointer := by
  refine fun a s => ⟨decode_pop a [], checks_oneRegister (exec_pop_eq a s), fun ha hnext => ?_⟩
  rw [exec_oneRegister_ok (exec_pop_eq a s) ha hnext]
  exact congrArg (fun x => Host.Outcome.next { s with x, pc := BitVec.ofNat 8 (s.pc.toNat + 2) })
    (x_setReg_incSp s ha s.loadTop)

/-- Settles O31: the shared course; the target is the register read after the decrement. -/
theorem callPushesReturnAddress : Obligations.CallPushesReturnAddress := by
  refine fun a s => ⟨decode_call a [], checks_oneRegister (exec_call_eq a s), fun ha hnext => ?_⟩
  rw [exec_oneRegister_ok (exec_call_eq a s) ha hnext, reg_decSp_operand]
  simp only [State.storeTop, State.sp_decSp]
  rfl

end Sys2Proof.Machine
end

section
/-! PROOF. The cycle runs the bytes at `pc`, where `pc` stands after it, and which fault it raises (spec
`40_cycle_and_halt.md` sections 1 and 2; `60_exceptions.md` sections 1 and 2; `20_memory.md` section 8). -/

namespace Sys2Proof.Machine

/-! ### The fetch -/

/-- Settles O6: in run state `running` the step is the cycle, and the cycle hands the decoded instruction to `exec`. -/
theorem stepRunsDecodedInstruction : Obligations.StepRunsDecodedInstruction := by
  intro s i rest hrun hdecode
  rw [step_running hrun, cycle, hdecode]

/-- Settles O7: the fetch window begins with the instruction's bytes, and these decode to it whatever follows. -/
theorem stepRunsTheBytesAtPc : Obligations.StepRunsTheBytesAtPc := fun _ _ => step_eq_exec_of_bytesAtPc

theorem fetchWindow_getElem? (s : State) {k : Nat} (hk : k < 3) (hfits : s.pc.toNat + k ≤ 255) :
    s.fetchWindow[k]? = some (s.readMem (BitVec.ofNat 8 (s.pc.toNat + k))) := by
  rw [State.fetchWindow, Memory.readFrom_getElem?, if_pos ⟨hk, by omega⟩]
  rfl

/-- The next fetch sees the cell at the address where it stands. -/
theorem fetchWindow_getElem?_of_addr (t : State) {k : Nat} {d : Addr} (hk : k < 3) (hd : t.pc.toNat + k = d.toNat) :
    t.fetchWindow[k]? = some (t.readMem d) := by
  have hfits : t.pc.toNat + k ≤ 255 := by omega
  rw [fetchWindow_getElem? t hk hfits, hd, BitVec.ofNat_toNat, BitVec.setWidth_eq]

/-- A PUSH without a fault leaves, at the decremented stack pointer, the register read after the decrement. -/
theorem readMem_of_exec_push {a : Byte} (ha : a.toNat < 8) {s t : State} (hexec : exec (.push a) s = .next t)
    (hrs : t.rs ≠ .faulted) : t.readMem s.decSp.sp = s.decSp.reg ⟨a.toNat, ha⟩ := by
  obtain hfail | ⟨ra, next, hra, -, rfl⟩ := exec_cases hexec
  · exact absurd hfail.rs hrs
  · obtain rfl : ra = ⟨a.toNat, ha⟩ := Fin.ext hra
    exact State.readMem_storeTop_self _ _

/-- A CALL without a fault leaves, at the decremented stack pointer, the address of the instruction after it. -/
theorem readMem_of_exec_call {a : Byte} {s t : State} (hexec : exec (.call a) s = .next t) (hrs : t.rs ≠ .faulted) :
    (t.readMem s.decSp.sp).toNat = s.pc.toNat + 2 := by
  obtain hfail | ⟨ra, next, hra, hnext, rfl⟩ := exec_cases hexec
  · exact absurd hfail.rs hrs
  · rw [← hnext]
    exact congrArg BitVec.toNat (State.readMem_storeTop_self _ _)

/-- Settles O8: the window is the cells as they stand, and the stored byte stands in the cell that the next fetch sees. -/
theorem storedByteIsFetchedByNextCycle : Obligations.StoredByteIsFetchedByNextCycle := by
  refine ⟨fun s k => fetchWindow_getElem? s, fun s t a ha k hk hsp hrs => ⟨fun hexec => ?push, fun hexec => ?call⟩⟩ <;>
    rw [fetchWindow_getElem?_of_addr t hk hsp]
  case push => rw [readMem_of_exec_push ha hexec hrs]
  case call => rw [← readMem_of_exec_call hexec hrs, BitVec.ofNat_toNat, BitVec.setWidth_eq]

/-! ### Where `pc` stands -/

theorem CheckFailed.pc {s t : State} (h : CheckFailed s t) : t.pc = s.pc := by
  obtain ⟨c, o, -, rfl⟩ := h.eq_raise
  rfl

theorem Effect.rs_ne_faulted {s t : State} {i : Instr} (h : Effect s t i) (hrun : s.rs = .running) :
    t.rs ≠ .faulted := by
  obtain ⟨hrs, -⟩ := h.rs_fault
  rw [hrs, hrun]
  split <;> simp

/-- An instruction that uses its successor leaves `pc` there, but for CALL, which leaves it at its target. -/
theorem Effect.pc_successor {s t : State} {i : Instr} (h : Effect s t i)
    (huses : Expect.usesSuccessor s.flags.e i = true) (hcall : ∀ a, i ≠ .call a) :
    t.pc.toNat = s.pc.toNat + (encode i).length := by
  cases i
  case call a => exact absurd rfl (hcall a)
  case hlt | ret | jmp => cases huses
  case ldi | prn | push | pop => obtain ⟨ra, next, -, hnext, rfl⟩ := h; exact hnext
  case mul | add | cmp => obtain ⟨ra, rb, next, -, -, hnext, rfl⟩ := h; exact hnext
  case jeq | jne =>
    obtain ⟨ra, -, ⟨he, -⟩ | ⟨-, next, hnext, rfl⟩⟩ := h
    · simp [Expect.usesSuccessor, he] at huses
    · exact hnext

theorem Effect.pc_call {s t : State} {a : Byte} (h : Effect s t (.call a)) (ha : a.toNat < 8) :
    t.pc = s.decSp.reg ⟨a.toNat, ha⟩ := by
  obtain ⟨ra, next, hra, -, rfl⟩ := h
  obtain rfl : ra = ⟨a.toNat, ha⟩ := Fin.ext hra
  rfl

/-- A jump that is taken leaves `pc` at the register. -/
theorem Effect.pc_jump {s t : State} {i : Instr} {a : Byte} (h : Effect s t i) (ha : a.toNat < 8)
    (hi : i = .jmp a ∨ (i = .jeq a ∧ s.flags.e = true) ∨ (i = .jne a ∧ s.flags.e = false)) :
    t.pc = s.reg ⟨a.toNat, ha⟩ := by
  obtain rfl | ⟨rfl, he⟩ | ⟨rfl, he⟩ := hi
  · obtain ⟨ra, hra, rfl⟩ := h
    exact congrArg s.reg (Fin.ext hra)
  all_goals
    obtain ⟨ra, hra, ⟨-, rfl⟩ | ⟨he', -⟩⟩ := h
    · exact congrArg s.reg (Fin.ext hra)
    · simp [he] at he'

/-- Settles O11: a failed check leaves `pc`, and an effect leaves it where the instruction's kind says. -/
theorem pcIsWrittenOnce : Obligations.PcIsWrittenOnce := by
  intro i s t hrun hexec
  obtain hfail | heffect := exec_cases hexec
  · exact ⟨fun _ => hfail.pc, fun hrs => absurd hfail.rs hrs⟩
  · refine ⟨fun hrs => absurd hrs (heffect.rs_ne_faulted hrun), fun _ => ⟨?hlt, heffect.pc_successor, ?call, ?ret,
      fun a ha => heffect.pc_jump ha⟩⟩
    case hlt => rintro rfl; cases heffect; rfl
    case call => rintro a ha rfl; exact heffect.pc_call ha
    case ret => rintro rfl; cases heffect; rfl

/-! ### Which fault is raised -/

/-- The converse of `Memory.over_of_length_readFrom_lt`: operand bytes that do not fit are not in the window. -/
theorem Memory.length_readFrom_lt_of_over {m : Memory} {p n : Nat} (hp : p ≤ 255) (hover : 255 < p + n) :
    (m.readFrom (p + 1) 2).length < n := by
  have hnone : (m.readFrom (p + 1) 2)[n - 1]? = none := by
    rw [Memory.readFrom_getElem?]
    exact if_neg (by omega)
  have hlen := List.getElem?_eq_none_iff.1 hnone
  omega

/-- Settles O13: the row's operand bytes are not all in the window, so the decode is short and the cycle raises check 2's
fault. -/
theorem fetchOverrunIsRaised : Obligations.FetchOverrunIsRaised := by
  intro s row hrun hmem hop hover
  have hshort : (s.mem.readFrom (s.pc.toNat + 1) 2).length < row.operands :=
    Memory.length_readFrom_lt_of_over (Nat.le_of_lt_succ s.pc.isLt) hover
  rw [step_running hrun, cycle, State.fetchWindow_eq, decode_truncated (lookupOpcode_eq_some_iff.2 ⟨hmem, hop⟩) hshort]
  rfl

/-- HLT and RET have no operand byte and no successor, so none of the three checks can fail. -/
theorem checks_noOperand (i : Instr) (s : State) : Expect.checks i 0 [] false s :=
  ⟨fun hover => absurd s.pc.isLt (by omega), fun _ _ hbad => (Option.some_ne_none _ hbad.symm).elim,
    fun _ _ huses => (Bool.false_ne_true huses).elim⟩

/-- The faults of every instruction, from the course it shares with others (R93). -/
theorem exec_checks (i : Instr) (s : State) :
    Expect.checks i ((encode i).length - 1) i.registerOperands (Expect.usesSuccessor s.flags.e i) s :=
  match i with
  | .hlt => checks_noOperand .hlt s
  | .ret => checks_noOperand .ret s
  | .ldi a imm => checks_oneRegister (exec_ldi_eq a imm s)
  | .prn a => checks_oneRegister (exec_prn_eq a s)
  | .push a => checks_oneRegister (exec_push_eq a s)
  | .pop a => checks_oneRegister (exec_pop_eq a s)
  | .call a => checks_oneRegister (exec_call_eq a s)
  | .mul a b => checks_aluInstruction (exec_mul_eq a b s)
  | .add a b => checks_aluInstruction (exec_add_eq a b s)
  | .cmp a b => checks_aluInstruction (exec_cmp_eq a b s)
  | .jmp a => checks_conditionalJump (exec_jmp_eq a s)
  | .jeq a => checks_conditionalJump (exec_jeq_eq a s)
  | .jne a => Bool.not_not s.flags.e ▸ checks_conditionalJump (exec_jne_eq a s)

theorem wellFormed_iff_registerOperands {i : Instr} : i.wellFormed = true ↔ ∀ r ∈ i.registerOperands, r.toNat < 8 := by
  simp [Instr.wellFormed, registerByteOk, Nat.lt_succ_iff]

/-- A conditional jump raises no fault where its bytes, its register and, if it is not taken, its successor are there. -/
theorem rs_conditionalJump {taken : Bool} {a : Byte} {s : State} (ha : a.toNat < 8) (hfits : s.pc.toNat + 1 ≤ 255)
    (hnext : (!taken) = false ∨ s.pc.toNat + 2 ≤ 255) : (conditionalJump taken a s).rs = s.rs := by
  rw [conditionalJump, checkFetch_ok _ hfits, withRegister_ok _ ha]
  cases taken with
  | true => rfl
  | false => rw [if_neg Bool.false_ne_true, withSuccessor_ok _ (hnext.resolve_left (by simp)), State.setPc_rs]

/-- With every check passed an instruction raises no fault. -/
theorem exec_completes {i : Instr} {s : State} (hrs : s.rs ≠ .faulted) (hregs : ∀ r ∈ i.registerOperands, r.toNat < 8)
    (hfits : s.pc.toNat + ((encode i).length - 1) ≤ 255)
    (hnext : Expect.usesSuccessor s.flags.e i = false ∨ s.pc.toNat + (encode i).length ≤ 255) :
    ∃ t, exec i s = .next t ∧ t.rs ≠ .faulted := by
  cases i
  case hlt => exact ⟨_, exec_hlt_eq s, by simp⟩
  case ret => exact ⟨_, exec_ret_eq s, hrs⟩
  all_goals have ha := hregs _ List.mem_cons_self
  case ldi a imm => exact ⟨_, exec_oneRegister_ok (exec_ldi_eq a imm s) ha (hnext.resolve_left Bool.noConfusion), hrs⟩
  case prn a => exact ⟨_, exec_oneRegister_ok (exec_prn_eq a s) ha (hnext.resolve_left Bool.noConfusion), hrs⟩
  case push a => exact ⟨_, exec_oneRegister_ok (exec_push_eq a s) ha (hnext.resolve_left Bool.noConfusion), hrs⟩
  case pop a => exact ⟨_, exec_oneRegister_ok (exec_pop_eq a s) ha (hnext.resolve_left Bool.noConfusion), hrs⟩
  case call a => exact ⟨_, exec_oneRegister_ok (exec_call_eq a s) ha (hnext.resolve_left Bool.noConfusion), hrs⟩
  case mul a b | add a b | cmp a b =>
    have hb := hregs b (List.mem_cons_of_mem _ List.mem_cons_self)
    exact ⟨_, congrArg Host.Outcome.next (aluInstruction_ok _ ha hb (hnext.resolve_left Bool.noConfusion)), hrs⟩
  case jmp a => exact ⟨_, exec_jmp_eq a s, rs_conditionalJump (taken := true) ha hfits (.inl rfl) ▸ hrs⟩
  case jeq a => exact ⟨_, exec_jeq_eq a s, rs_conditionalJump ha hfits hnext ▸ hrs⟩
  case jne a => exact ⟨_, exec_jne_eq a s, rs_conditionalJump ha hfits (by rwa [Bool.not_not]) ▸ hrs⟩

/-- The last byte of an instruction that stands at `pc` lies inside memory. -/
theorem fits_of_bytesAtPc {i : Instr} {s : State} (h : Expect.bytesAtPc i s) :
    s.pc.toNat + ((encode i).length - 1) ≤ 255 := by
  have hpos : 0 < (encode i).length := by cases i <;> simp [encode]
  obtain ⟨hfits, -⟩ := h _ _ (List.getElem?_eq_getElem (Nat.sub_lt hpos Nat.one_pos))
  exact hfits

/-- Settles O14: the step is the instruction's, whose checks are made in order; where all pass, no fault is raised. -/
theorem invalidRegisterBeforePcOverrun : Obligations.InvalidRegisterBeforePcOverrun := by
  intro s i hrun hbytes
  have hfits := fits_of_bytesAtPc hbytes
  obtain ⟨-, hinvalid, hpcOverrun⟩ := exec_checks i s
  rw [step_eq_exec_of_bytesAtPc hrun hbytes]
  refine ⟨fun r => hinvalid r hfits, fun hwf huses hend => ?_, fun hwf => ?_⟩ <;>
    rw [wellFormed_iff_registerOperands] at hwf
  · exact hpcOverrun hfits (fun r hr => Nat.le_of_lt_succ (hwf r hr)) huses (by omega)
  · exact exec_completes (by simp [hrun]) hwf hfits

end Sys2Proof.Machine
end

section
/-! PROOF. Memory by its reads: the most recent write is what a read returns, and canonical memories are their reads (spec
`20_memory.md` sections 1 and 7). -/

namespace Sys2Proof.Machine

/-- Settles O22, by induction on the writes from the last one on: it decides the read at its own address and leaves every
other one. -/
theorem readReturnsMostRecentWrite : Obligations.ReadReturnsMostRecentWrite := by
  intro m ws a
  induction ws using List.reverseRecOn with
  | nil => rfl
  | append_singleton ws w ih =>
    rw [List.foldl_append, List.reverse_append]
    show ((ws.foldl (fun n w => n.write w.1 w.2) m).write w.1 w.2).read a = _
    by_cases hw : w.1 = a
    · simp [hw]
    · rw [Memory.read_write_ne _ _ (Ne.symm hw), ih]
      simp [hw]

/-- An unlisted key reads as the fill. -/
theorem lookupCell_eq_fill {k : Nat} {m : Memory} (h : ∀ c ∈ m, c.1 ≠ k) : lookupCell k m = Config.memFill := by
  induction m with
  | nil => rfl
  | cons c m ih =>
    obtain ⟨hc, hm⟩ := List.forall_mem_cons.1 h
    rw [lookupCell_cons, if_neg hc, ih hm]

/-- With rising keys a listed cell is what its key reads as. -/
theorem lookupCell_of_mem {m : Memory} (hm : m.Pairwise fun c d => c.1 < d.1) {c : Host.Cell} (hc : c ∈ m) :
    lookupCell c.1 m = c.2 := by
  induction m with
  | nil => cases hc
  | cons d m ih =>
    obtain ⟨hd, hm⟩ := List.pairwise_cons.1 hm
    rw [lookupCell_cons]
    obtain rfl | hc := List.mem_cons.1 hc
    · exact if_pos rfl
    · rw [if_neg (hd c hc).ne, ih hm hc]

theorem mem_of_lookupCell_ne_fill {k : Nat} {m : Memory} (h : lookupCell k m ≠ Config.memFill) :
    (k, lookupCell k m) ∈ m := by
  induction m with
  | nil => exact absurd rfl h
  | cons c m ih =>
    rw [lookupCell_cons] at h ⊢
    split at h <;> rename_i hk
    · rw [if_pos hk, ← hk]
      exact List.mem_cons_self
    · rw [if_neg hk]
      exact List.mem_cons_of_mem _ (ih h)

theorem Memory.nodup_of_wf {m : Memory} (hwf : m.wf) : m.Nodup :=
  hwf.1.imp fun hlt heq => (heq ▸ hlt).false

/-- A canonical memory lists exactly the addresses that do not read as the fill, each with its byte. -/
theorem Memory.mem_iff_read {m : Memory} (hwf : m.wf) (c : Host.Cell) :
    c ∈ m ↔ ∃ a : Addr, a.toNat = c.1 ∧ m.read a = c.2 ∧ c.2 ≠ Config.memFill := by
  obtain ⟨hsorted, hcells⟩ := hwf
  constructor
  · intro hc
    obtain ⟨hlt, hne⟩ := hcells c hc
    have haddr : (BitVec.ofNat 8 c.1).toNat = c.1 := Nat.mod_eq_of_lt hlt
    refine ⟨BitVec.ofNat 8 c.1, haddr, ?_, hne⟩
    rw [Memory.read, haddr, lookupCell_of_mem hsorted hc]
  · rintro ⟨a, haddr, hread, hne⟩
    have hlookup : lookupCell c.1 m = c.2 := haddr ▸ hread
    rw [← hlookup] at hne
    have hmem := mem_of_lookupCell_ne_fill hne
    rwa [hlookup] at hmem

/-- Settles O23: canonical memories with the same reads list the same cells, and a list with rising addresses is determined
by which cells it lists. -/
theorem canonicalMemoryIsItsReads : Obligations.CanonicalMemoryIsItsReads := by
  intro m n hm hn hreads
  have hcells : ∀ c, c ∈ m ↔ c ∈ n := fun c => by
    rw [Memory.mem_iff_read hm, Memory.mem_iff_read hn]
    simp only [hreads]
  have hasymm : ∀ c d : Host.Cell, c ∈ m → d ∈ n → c.1 < d.1 → d.1 < c.1 → c = d :=
    fun c d _ _ hcd hdc => absurd hcd hdc.not_gt
  have hperm : m.Perm n := (List.perm_ext_iff_of_nodup (Memory.nodup_of_wf hm) (Memory.nodup_of_wf hn)).2 hcells
  exact hperm.eq_of_pairwise hasymm hm.1 hn.1

end Sys2Proof.Machine
end

section
/-! PROOF. Reset, the launch state and the load errors (spec `10_state.md` section 7; `70_reset_and_hazards.md` sections 1
and 2). -/

namespace Sys2Proof.Machine

/-- Settles O16: every component of the reset state is a literal, but for the register file, which is read register by
register, and memory, in which nothing is listed. -/
theorem resetState : Obligations.ResetState :=
  ⟨by decide, rfl, rfl, Memory.read_nil, rfl, rfl, rfl, reset_eq_resetWith⟩

theorem reg_resetWith (sp fill : Byte) (r : RegNum) : (State.resetWith sp fill).reg r = if r = 7 then sp else 0x00 := by
  have hset : (State.resetWith sp fill).reg r = (State.reset.setReg 7 sp).reg r := by
    fin_cases r <;> rfl
  rw [hset, State.reg_setReg]
  obtain ⟨hreset, -⟩ := resetState
  rw [hreset]

/-- Settles O18: a launch that answers a state has placed the image and started, which touches no register, flag, record
or output of the reset state. -/
theorem launchState : Obligations.LaunchState := by
  refine ⟨fun sp fill img s hlaunch => ?_, fun sp fill img hlong => if_neg (Nat.not_le.2 hlong)⟩
  obtain rfl := launch_ok hlaunch
  have hreg := reg_resetWith sp fill
  exact ⟨hreg 7, fun r hr => (hreg r).trans (if_neg hr), rfl, rfl, rfl, rfl, rfl⟩

/-- A text that is no error has no line that is one. -/
theorem parseLine_ok_of_parseLines {ls : List (List Char)} {img : List Byte} (h : parseLines ls = .ok img) :
    ∀ l ∈ ls, ∃ o, parseLine l = .ok o := by
  induction ls generalizing img with
  | nil => exact fun l hl => by cases hl
  | cons l ls ih =>
    obtain ⟨o, bs, hl, hls, -⟩ := parseLines_cons_ok h
    exact List.forall_mem_cons.2 ⟨⟨o, hl⟩, ih hls⟩

theorem launchFile_of_loadImage_error {file : Option (List (List Char))} {e : LoadError} (h : loadImage file = .error e)
    (sp fill : Byte) : State.launchFile sp fill file = .error e := by
  rw [State.launchFile, h]

/-- Settles O20: a launch needs an image, an image needs every line to parse, and a line that parses is empty or a base-2
literal. -/
theorem loadErrorsAbortStartup : Obligations.LoadErrorsAbortStartup := by
  refine fun sp fill => ⟨⟨_, launchFile_of_loadImage_error rfl sp fill⟩, fun ls l hl hne hbad => ?_⟩
  cases himg : loadImage (some ls) with
  | error e => exact ⟨e, launchFile_of_loadImage_error himg sp fill⟩
  | ok img =>
    obtain ⟨o, ho⟩ := parseLine_ok_of_parseLines (loadImage_ok himg) l hl
    obtain ⟨hempty, -⟩ | ⟨-, b, -, hvalue⟩ := parseLine_ok ho
    · exact absurd hempty hne
    · rw [hbad] at hvalue
      cases hvalue

end Sys2Proof.Machine
end

section
/-! PROOF. The arithmetic of the ALU (spec `42_alu.md` sections 1 and 5): its sums and products are those of 8-bit words. -/

namespace Sys2Proof.Machine

theorem alu_add (va vb : Byte) : alu .add va vb = .value (va + vb) := rfl

theorem alu_mul (va vb : Byte) : alu .mul va vb = .value (va * vb) := rfl

/-- Adding 256 less `k` is subtracting `k`, since 256 is 0 modulo 256. -/
theorem add_ofNat_sub {k : Nat} (hk : k ≤ 255) (va : Byte) : va + BitVec.ofNat 8 (256 - k) = va - BitVec.ofNat 8 k := by
  have hneg : BitVec.ofNat 8 (256 - k) = -BitVec.ofNat 8 k := by bv_omega
  rw [hneg, BitVec.sub_eq_add_neg]

theorem shiftLeft_eq_mul_ofNat_pow (va : Byte) (k : Nat) : va <<< k = va * BitVec.ofNat 8 (2 ^ k) := by
  rw [BitVec.shiftLeft_eq_mul_twoPow]
  congr 1
  exact BitVec.eq_of_toNat_eq (BitVec.toNat_twoPow 8 k)

/-- Settles O43: the laws of addition and multiplication of 8-bit words; a signed sum or product differs from the word's by
a multiple of 256. -/
theorem aluLaws : Obligations.AluLaws := by
  intro va vb
  refine ⟨⟨va + vb, alu_add va vb, BitVec.toNat_add va vb, ?_, ?_⟩,
    ⟨va * vb, alu_mul va vb, BitVec.toNat_mul va vb, ?_, ?_⟩, fun k _ hk => ?_, ?_, fun k _ => ?_⟩
  · rw [alu_add, BitVec.add_comm]
  · rw [BitVec.toInt_add]
    exact Int.dvd_bmod_sub_self
  · rw [alu_mul, BitVec.mul_comm]
  · rw [BitVec.toInt_mul]
    exact Int.dvd_bmod_sub_self
  · rw [alu_add, add_ofNat_sub hk]
  · have hminus : (255 : Byte) = -1 := rfl
    rw [alu_mul, hminus, mul_neg_one]
  · rw [alu_mul, shiftLeft_eq_mul_ofNat_pow]

end Sys2Proof.Machine
end

section
/-! PROOF. PUSH then POP, and CALL then RET (spec `43_stack.md` section 4; `44_control_flow.md` section 7): a store below
the stack pointer is what the matching load above it finds. -/

namespace Sys2Proof.Machine

/-! ### What a store leaves -/

/-- What PUSH and CALL leave: the stack pointer one lower, and every other register and cell as before. -/
structure Stored (s t : State) : Prop where
  sp : t.reg 7 = s.reg 7 - 1
  reg : ∀ r : RegNum, r ≠ 7 → t.reg r = s.reg r
  cells : ∀ q : Addr, q ≠ t.reg 7 → t.readMem q = s.readMem q

theorem stored_storeTop (s : State) (v : Byte) (next : Addr) : Stored s ((s.decSp.storeTop v).setPc next) where
  sp := s.sp_decSp
  reg r hr := (s.reg_decSp r).trans (if_neg hr)
  cells _ hq := s.decSp.readMem_storeTop_ne v hq

/-- A PUSH of another register than `r7` without a fault: the cell at the new stack pointer has the register's value. -/
theorem stored_of_exec_push {a : Byte} (ha : a.toNat < 7) {s t : State} (hexec : exec (.push a) s = .next t)
    (hrs : t.rs ≠ .faulted) : Stored s t ∧ t.readMem (t.reg 7) = s.reg ⟨a.toNat, by omega⟩ := by
  obtain hfail | ⟨ra, next, hra, -, rfl⟩ := exec_cases hexec
  · exact absurd hfail.rs hrs
  · have hne : ra.val ≠ 7 := by omega
    refine ⟨stored_storeTop s _ next, (s.decSp.readMem_storeTop_self _).trans ?_⟩
    rw [State.reg_decSp_of_val_ne hne]
    exact congrArg s.reg (Fin.ext hra)

/-- A CALL without a fault: the cell at the new stack pointer has the address of the instruction after it. -/
theorem stored_of_exec_call {a : Byte} {s t : State} (hexec : exec (.call a) s = .next t) (hrs : t.rs ≠ .faulted) :
    Stored s t ∧ (t.readMem (t.reg 7)).toNat = s.pc.toNat + 2 := by
  have hreturn := readMem_of_exec_call hexec hrs
  obtain hfail | ⟨ra, next, hra, hnext, rfl⟩ := exec_cases hexec
  · exact absurd hfail.rs hrs
  · exact ⟨stored_storeTop s next _, hreturn⟩

/-! ### PUSH then POP -/

/-- A POP into another register than `r7` without a fault. -/
theorem reg_of_exec_pop {b : Byte} (hb : b.toNat < 7) {u v : State} (hexec : exec (.pop b) u = .next v)
    (hrs : v.rs ≠ .faulted) : v.reg ⟨b.toNat, by omega⟩ = u.readMem (u.reg 7) ∧ v.reg 7 = u.reg 7 + 1 := by
  obtain hfail | ⟨rb, next, hrb, -, rfl⟩ := exec_cases hexec
  · exact absurd hfail.rs hrs
  · have hb' : b.toNat < 8 := hb.trans (Nat.lt_succ_self 7)
    obtain rfl : rb = ⟨b.toNat, hb'⟩ := Fin.ext hrb
    have hne : b.toNat ≠ 7 := by omega
    constructor
    · exact (State.reg_incSp_of_val_ne hne).trans (State.reg_setReg_self _ _ _)
    · refine (State.sp_incSp _).trans (congrArg (· + 1) ?_)
      exact State.reg_setReg_of_val_ne (Ne.symm hne)

/-- A POP that finds `x[7]` and the pushed cell as the PUSH left them moves the register's value and restores `x[7]`. -/
theorem pop_after_push {a b : Byte} (ha : a.toNat < 7) (hb : b.toNat < 7) {s t u v : State}
    (hpush : exec (.push a) s = .next t) (ht : t.rs ≠ .faulted) (hsp : u.reg 7 = t.reg 7)
    (hcell : u.readMem (t.reg 7) = t.readMem (t.reg 7)) (hpop : exec (.pop b) u = .next v) (hv : v.rs ≠ .faulted) :
    v.reg ⟨b.toNat, by omega⟩ = s.reg ⟨a.toNat, by omega⟩ ∧ v.reg 7 = s.reg 7 := by
  obtain ⟨hstored, hpushed⟩ := stored_of_exec_push ha hpush ht
  obtain ⟨hpopped, hinc⟩ := reg_of_exec_pop hb hpop hv
  constructor
  · rw [hpopped, hsp, hcell, hpushed]
  · rw [hinc, hsp, hstored.sp, BitVec.sub_add_cancel]

/-- Outside HLT no instruction ends a fault, so a sequence that ends without one had none before. -/
theorem not_faulted_before {i : Instr} {s t : State} (hexec : exec i s = .next t) (hi : i ≠ .hlt)
    (ht : t.rs ≠ .faulted) : s.rs ≠ .faulted := by
  obtain ⟨hrs, -⟩ | ⟨c, o, rfl⟩ := systemFrame_of_exec hexec hi
  · rwa [← hrs]
  · exact absurd rfl ht

/-- Two pushes and two pops: the first register popped gets the second one pushed, and the second the first. -/
theorem push_push_pop_pop {a b c d : Byte} (ha : a.toNat < 7) (hb : b.toNat < 7) (hc : c.toNat < 7) (hd : d.toNat < 7)
    (hcd : c.toNat ≠ d.toNat) {s t : State} (ht : t.rs ≠ .faulted)
    (h : Expect.execAll [.push a, .push b, .pop c, .pop d] s = some t) :
    t.reg ⟨c.toNat, by omega⟩ = s.reg ⟨b.toNat, by omega⟩ ∧ t.reg ⟨d.toNat, by omega⟩ = s.reg ⟨a.toNat, by omega⟩ ∧
      t.reg 7 = s.reg 7 := by
  obtain ⟨s₁, h₁, h⟩ := execAll_cons h
  obtain ⟨s₂, h₂, h⟩ := execAll_cons h
  obtain ⟨s₃, h₃, h⟩ := execAll_cons h
  obtain ⟨s₄, h₄, h⟩ := execAll_cons h
  obtain rfl : s₄ = t := Option.some.inj h
  have hs₃ := not_faulted_before h₄ (by simp) ht
  have hs₂ := not_faulted_before h₃ (by simp) hs₃
  have hs₁ := not_faulted_before h₂ (by simp) hs₂
  obtain ⟨houter, -⟩ := stored_of_exec_push ha h₁ hs₁
  obtain ⟨hinner, -⟩ := stored_of_exec_push hb h₂ hs₂
  obtain ⟨hc₃, hsp₃⟩ := pop_after_push hb hc h₂ hs₂ rfl rfl h₃ hs₃
  have hcell : s₃.readMem (s₁.reg 7) = s₁.readMem (s₁.reg 7) := by
    rw [keepsMemory_of_exec h₃ (by simp)]
    exact hinner.cells _ (by rw [hinner.sp]; bv_omega)
  obtain ⟨hd₄, hsp₄⟩ := pop_after_push ha hd h₁ hs₁ hsp₃ hcell h₄ ht
  have hc₄ : s₄.reg ⟨c.toNat, by omega⟩ = s₃.reg ⟨c.toNat, by omega⟩ :=
    keepsRegisters_of_exec h₄ _ (by simp [Instr.writtenRegisters, hcd, hc.ne])
  have hb₁ : s₁.reg ⟨b.toNat, by omega⟩ = s.reg ⟨b.toNat, by omega⟩ :=
    houter.reg _ fun h => hb.ne (congrArg Fin.val h)
  exact ⟨hc₄.trans (hc₃.trans hb₁), hd₄, hsp₄⟩

/-- Settles O46: the pop finds the cell that the push stored; two pairs nest, since the inner one stores below the cell of
the outer one. -/
theorem pushThenPopRestores : Obligations.PushThenPopRestores := by
  refine ⟨fun a b ha hb s t u v hpush ht hsp hcell hpop hv => pop_after_push ha hb hpush ht hsp hcell hpop hv,
    fun s t ht => ⟨fun h => ?restored, fun h => ?swapped⟩⟩ <;>
    obtain ⟨hfirst, hsecond, hsp⟩ := push_push_pop_pop (by decide) (by decide) (by decide) (by decide) (by decide) ht h
  case restored => exact ⟨hsecond, hfirst, hsp⟩
  case swapped => exact ⟨hfirst, hsecond, hsp⟩

/-! ### CALL then RET -/

/-- Settles O47: the RET finds the return address that the CALL stored, and the frames of both say the rest. -/
theorem callThenRetResumesAfterCall : Obligations.CallThenRetResumesAfterCall := by
  intro a s t u v hcall ht hsp hcell hret
  obtain ⟨hstored, hreturn⟩ := stored_of_exec_call hcall ht
  have hregs := keepsRegisters_of_exec hret
  obtain rfl := Host.Outcome.next.inj ((exec_ret_eq u).symm.trans hret)
  have hpc : (u.incSp.setPc u.loadTop).pc = t.readMem (t.reg 7) := by
    rw [State.setPc_pc, State.loadTop, State.sp_eq, hsp, hcell]
  have hrestored : (u.incSp.setPc u.loadTop).reg 7 = s.reg 7 := by
    rw [State.setPc_reg, ← State.sp_eq, State.sp_incSp, State.sp_eq, hsp, hstored.sp, BitVec.sub_add_cancel]
  refine ⟨hpc ▸ hreturn, hrestored, fun r hr => ⟨hstored.reg r hr, ?_⟩, flags_of_exec hcall (by simp), rfl,
    hstored.cells, fun q => rfl⟩
  exact hregs r fun h => hr (Fin.ext (List.mem_singleton.1 h))

end Sys2Proof.Machine
end

section
/-! PROOF. What no step reads: the flags `L` and `G`, and the output (spec `10_state.md` sections 4 and 5;
`44_control_flow.md` section 7). -/

namespace Sys2Proof.Machine

/-! ### Relations that a step keeps because it reads only what they fix -/

/-- A relation between states that fixes what a step reads (registers, `pc`, `E`, memory, run state) and that every
operation on the state keeps. -/
structure StepBlind (R : State → State → Prop) : Prop where
  x : ∀ {s s'}, R s s' → s'.x = s.x
  pc : ∀ {s s'}, R s s' → s'.pc = s.pc
  equal : ∀ {s s'}, R s s' → s'.flags.e = s.flags.e
  mem : ∀ {s s'}, R s s' → s'.mem = s.mem
  rs : ∀ {s s'}, R s s' → s'.rs = s.rs
  setReg : ∀ {s s'} r v, R s s' → R (s.setReg r v) (s'.setReg r v)
  setPc : ∀ {s s'} a, R s s' → R (s.setPc a) (s'.setPc a)
  setFlags : ∀ {s s'} f, R s s' → R (s.setFlags f) (s'.setFlags f)
  emit : ∀ {s s'} v, R s s' → R (s.emit v) (s'.emit v)
  halt : ∀ {s s'}, R s s' → R s.halt s'.halt
  writeMem : ∀ {s s'} a v, R s s' → R (s.writeMem a v) (s'.writeMem a v)
  raise : ∀ {s s'} c o, R s s' → R (s.raise c o) (s'.raise c o)

namespace StepBlind

variable {R : State → State → Prop} (hR : StepBlind R) {s s' : State} (h : R s s')
include hR h

/-! The reads. -/

theorem reg (r : RegNum) : s'.reg r = s.reg r := by
  rw [State.reg, State.reg, hR.x h]

theorem sp : s'.sp = s.sp := hR.reg h 7

theorem readMem (a : Addr) : s'.readMem a = s.readMem a := congrArg (Memory.read · a) (hR.mem h)

theorem loadTop : s'.loadTop = s.loadTop := by
  rw [State.loadTop, hR.readMem h, hR.sp h]; rfl

theorem fetchWindow : s'.fetchWindow = s.fetchWindow := by
  rw [State.fetchWindow, State.fetchWindow, hR.mem h, hR.pc h]

/-! The stack operations and the ALU's write. -/

theorem decSp : R s.decSp s'.decSp := by
  rw [State.decSp, State.decSp, hR.sp h]
  exact hR.setReg _ _ h

theorem incSp : R s.incSp s'.incSp := by
  rw [State.incSp, State.incSp, hR.sp h]
  exact hR.setReg _ _ h

theorem storeTop (v : Byte) : R (s.storeTop v) (s'.storeTop v) := by
  rw [State.storeTop, State.storeTop, hR.sp h]
  exact hR.writeMem _ _ h

theorem writeAlu (r : RegNum) (o : AluOut) : R (s.writeAlu r o) (s'.writeAlu r o) :=
  match o with
  | .value v => hR.setReg r v h
  | .trio f => hR.setFlags f h

/-! The checks. -/

theorem checkFetch {n : Nat} {onward onward' : State} (ho : R onward onward') :
    R (checkFetch n s onward) (checkFetch n s' onward') := by
  rw [Machine.checkFetch, Machine.checkFetch, hR.pc h]
  split
  · exact hR.raise _ _ h
  · exact ho

theorem withRegister {a : Byte} {f f' : RegNum → State} (ho : ∀ r, R (f r) (f' r)) :
    R (withRegister a s f) (withRegister a s' f') := by
  rw [Machine.withRegister, Machine.withRegister]
  split
  · exact ho _
  · exact hR.raise _ _ h

theorem withSuccessor {len : Nat} {f f' : Addr → State} (ho : ∀ next, R (f next) (f' next)) :
    R (withSuccessor len s f) (withSuccessor len s' f') := by
  rw [Machine.withSuccessor, Machine.withSuccessor, hR.pc h]
  split
  · exact hR.raise _ _ h
  · exact ho _

/-! The instructions. -/

theorem oneRegister {n len : Nat} {a : Byte} {f f' : RegNum → Addr → State} (ho : ∀ r next, R (f r next) (f' r next)) :
    R (Machine.checkFetch n s <| Machine.withRegister a s fun ra => Machine.withSuccessor len s (f ra))
      (Machine.checkFetch n s' <| Machine.withRegister a s' fun ra => Machine.withSuccessor len s' (f' ra)) :=
  hR.checkFetch h <| hR.withRegister h fun r => hR.withSuccessor h (ho r)

theorem aluInstruction (op : AluOp) (a b : Byte) : R (aluInstruction op a b s) (aluInstruction op a b s') := by
  refine hR.checkFetch h <| hR.withRegister h fun ra => hR.withRegister h fun rb => hR.withSuccessor h fun next => ?_
  rw [hR.reg h, hR.reg h]
  exact hR.setPc _ (hR.writeAlu h _ _)

theorem conditionalJump (taken : Bool) (a : Byte) : R (conditionalJump taken a s) (conditionalJump taken a s') := by
  refine hR.checkFetch h <| hR.withRegister h fun ra => ?_
  cases taken with
  | true =>
    rw [hR.reg h]
    exact hR.setPc _ h
  | false => exact hR.withSuccessor h fun next => hR.setPc next h

theorem exec (i : Instr) : ∃ t t', exec i s = .next t ∧ exec i s' = .next t' ∧ R t t' := by
  cases i
  case hlt => exact ⟨_, _, rfl, rfl, hR.halt h⟩
  case ret =>
    refine ⟨_, _, exec_ret_eq s, exec_ret_eq s', ?_⟩
    rw [hR.loadTop h]
    exact hR.setPc _ (hR.incSp h)
  case ldi a imm => exact ⟨_, _, rfl, rfl, hR.oneRegister h fun r next => hR.setPc next (hR.setReg r imm h)⟩
  case prn a =>
    refine ⟨_, _, exec_prn_eq a s, exec_prn_eq a s', hR.oneRegister h fun r next => ?_⟩
    rw [hR.reg h]
    exact hR.setPc next (hR.emit _ h)
  case push a =>
    refine ⟨_, _, exec_push_eq a s, exec_push_eq a s', hR.oneRegister h fun r next => ?_⟩
    rw [hR.reg (hR.decSp h)]
    exact hR.setPc next (hR.storeTop (hR.decSp h) _)
  case pop a =>
    refine ⟨_, _, exec_pop_eq a s, exec_pop_eq a s', hR.oneRegister h fun r next => ?_⟩
    rw [hR.loadTop h]
    exact hR.setPc next (hR.incSp (hR.setReg r _ h))
  case call a =>
    refine ⟨_, _, exec_call_eq a s, exec_call_eq a s', hR.oneRegister h fun r next => ?_⟩
    rw [hR.reg (hR.decSp h)]
    exact hR.setPc _ (hR.storeTop (hR.decSp h) next)
  case mul a b => exact ⟨_, _, rfl, rfl, hR.aluInstruction h .mul a b⟩
  case add a b => exact ⟨_, _, rfl, rfl, hR.aluInstruction h .add a b⟩
  case cmp a b => exact ⟨_, _, rfl, rfl, hR.aluInstruction h .cmp a b⟩
  case jeq a => exact ⟨_, _, rfl, exec_jeq_eq a s', hR.equal h ▸ hR.conditionalJump h _ a⟩
  case jne a => exact ⟨_, _, rfl, exec_jne_eq a s', hR.equal h ▸ hR.conditionalJump h _ a⟩
  case jmp a => exact ⟨_, _, exec_jmp_eq a s, exec_jmp_eq a s', hR.conditionalJump h true a⟩

theorem decodeFault (e : DecodeError) : R (decodeFault e s) (decodeFault e s') :=
  match e with
  | .illegalOpcode => hR.raise _ _ h
  | .truncated => hR.raise _ _ h

/-- Related states step to related states. -/
theorem step_next {t : State} (hstep : step s = .next t) : ∃ t', step s' = .next t' ∧ R t t' := by
  have hrun := (step_cases hstep).1
  rw [step_running hrun, cycle] at hstep
  rw [step_running ((hR.rs h).trans hrun), cycle, hR.fetchWindow h]
  cases hd : decode s.fetchWindow with
  | ok p =>
    obtain ⟨u, u', hu, hu', hrel⟩ := hR.exec h p.1
    rw [hd] at hstep
    obtain rfl : u = t := Host.Outcome.next.inj (hu.symm.trans hstep)
    exact ⟨u', hu', hrel⟩
  | error e =>
    rw [hd] at hstep
    obtain rfl := Host.Outcome.next.inj hstep
    exact ⟨_, rfl, hR.decodeFault h e⟩

/-- Related states stop alike. -/
theorem step_fault {f : Fault} (hstep : step s = .fault f) : step s' = .fault f := by
  have hrs := hR.rs h
  cases hs : s.rs with
  | running =>
    obtain ⟨t, hnext⟩ := step_next_of_running hs
    cases hnext.symm.trans hstep
  | halted => rw [step_halted (hrs.trans hs), ← hstep, step_halted hs]
  | faulted => rw [step_faulted (hrs.trans hs), ← hstep, step_faulted hs]

end StepBlind

/-! ### `L` and `G` -/

/-- The states differ at most in `L` and `G`. -/
def AgreeButLG (s s' : State) : Prop := ∃ l g, s' = { s with flags := ⟨s.flags.e, l, g⟩ }

theorem agreeButLG_stepBlind : StepBlind AgreeButLG where
  x := by rintro s _ ⟨l, g, rfl⟩; rfl
  pc := by rintro s _ ⟨l, g, rfl⟩; rfl
  equal := by rintro s _ ⟨l, g, rfl⟩; rfl
  mem := by rintro s _ ⟨l, g, rfl⟩; rfl
  rs := by rintro s _ ⟨l, g, rfl⟩; rfl
  setReg := by rintro s _ r v ⟨l, g, rfl⟩; exact ⟨l, g, rfl⟩
  setPc := by rintro s _ a ⟨l, g, rfl⟩; exact ⟨l, g, rfl⟩
  setFlags := by rintro s _ f ⟨l, g, rfl⟩; exact ⟨f.l, f.g, rfl⟩
  emit := by rintro s _ v ⟨l, g, rfl⟩; exact ⟨l, g, rfl⟩
  halt := by rintro s _ ⟨l, g, rfl⟩; exact ⟨l, g, rfl⟩
  writeMem := by rintro s _ a v ⟨l, g, rfl⟩; exact ⟨l, g, rfl⟩
  raise := by rintro s _ c o ⟨l, g, rfl⟩; exact ⟨l, g, rfl⟩

/-- Settles O48: a step reads neither flag, so it keeps the relation that leaves them free. -/
theorem lessAndGreaterSteerNothing : Obligations.LessAndGreaterSteerNothing := by
  intro s l g
  have hagree : AgreeButLG s { s with flags := ⟨s.flags.e, l, g⟩ } := ⟨l, g, rfl⟩
  refine ⟨fun t hstep => ?_, fun f => agreeButLG_stepBlind.step_fault hagree⟩
  obtain ⟨_, hstep', l', g', rfl⟩ := agreeButLG_stepBlind.step_next hagree hstep
  exact ⟨l', g', hstep'⟩

/-! ### The output -/

/-- The states differ at most in the output from before: `base` here and `before` there, with the same appended to both. -/
def AgreeButOutput (base before : List Byte) (s s' : State) : Prop :=
  ∃ w, s.out = base ++ w ∧ s' = { s with out := before ++ w }

theorem agreeButOutput_stepBlind (base before : List Byte) : StepBlind (AgreeButOutput base before) where
  x := by rintro s _ ⟨w, -, rfl⟩; rfl
  pc := by rintro s _ ⟨w, -, rfl⟩; rfl
  equal := by rintro s _ ⟨w, -, rfl⟩; rfl
  mem := by rintro s _ ⟨w, -, rfl⟩; rfl
  rs := by rintro s _ ⟨w, -, rfl⟩; rfl
  setReg := by rintro s _ r v ⟨w, hw, rfl⟩; exact ⟨w, hw, rfl⟩
  setPc := by rintro s _ a ⟨w, hw, rfl⟩; exact ⟨w, hw, rfl⟩
  setFlags := by rintro s _ f ⟨w, hw, rfl⟩; exact ⟨w, hw, rfl⟩
  emit := by
    rintro s _ v ⟨w, hw, rfl⟩
    refine ⟨w ++ [v], ?_, ?_⟩
    · rw [State.emit_out, hw, List.append_assoc]
    · rw [← List.append_assoc]; rfl
  halt := by rintro s _ ⟨w, hw, rfl⟩; exact ⟨w, hw, rfl⟩
  writeMem := by rintro s _ a v ⟨w, hw, rfl⟩; exact ⟨w, hw, rfl⟩
  raise := by rintro s _ c o ⟨w, hw, rfl⟩; exact ⟨w, hw, rfl⟩

/-- Settles O49: a step does not read the output, so it appends the same to any, and what it appends is what the out port
carries. -/
theorem outputIsNeverReadBack : Obligations.OutputIsNeverReadBack := by
  intro s t before hstep
  have hout := out_eq_append_outPort hstep
  have hagree : AgreeButOutput s.out before s { s with out := before } :=
    ⟨[], (List.append_nil _).symm, by rw [List.append_nil]⟩
  obtain ⟨_, hstep', w, hw, rfl⟩ := (agreeButOutput_stepBlind s.out before).step_next hagree hstep
  obtain rfl : (outPort s t).toList = w := List.append_cancel_left (hout.symm.trans hw)
  exact ⟨hstep', hout ▸ List.prefix_append _ _⟩

end Sys2Proof.Machine
end

section
/-! PROOF. Which runs end, and how (spec `70_reset_and_hazards.md` sections 4 and 6). -/

namespace Sys2Proof.Machine

/-- Settles O53, by induction on the number of steps: a running state steps on, and a stopped one is where the run ends. -/
theorem runsStopOnlyWhenStopped : Obligations.RunsStopOnlyWhenStopped := by
  intro k
  induction k with
  | zero => exact fun s => .inl ⟨s, rfl⟩
  | succ k ih =>
    intro s
    by_cases hrun : s.rs = .running
    · obtain ⟨s', hstep⟩ := step_next_of_running hrun
      rw [run_succ_of_next hstep]
      refine (ih s').imp_right fun ⟨j, t, hj, hrunj, ht⟩ => ⟨j + 1, t, Nat.succ_lt_succ hj, ?_, ht⟩
      rwa [run_succ_of_next hstep]
    · obtain ⟨f, hstep⟩ := step_stopped hrun
      exact .inr ⟨0, s, k.succ_pos, rfl, hrun, f, run_succ_of_fault hstep k, hstep⟩

/-- A run without an end state never stops. -/
theorem runsForever_of_no_end {s : State} (h : ¬ ∃ t, s.endsIn t) : s.runsForever := by
  intro k
  obtain hnext | ⟨j, t, -, hrun, ht, -⟩ := runsStopOnlyWhenStopped k s
  · exact hnext
  · exact absurd ⟨t, j, hrun, ht⟩ h

theorem not_runsForever_of_end {s t : State} (h : s.endsIn t) : ¬ s.runsForever := by
  obtain ⟨k, hrun, ht⟩ := h
  intro hforever
  obtain ⟨j, f, hfault⟩ := run_faults_of_stopped hrun ht
  obtain ⟨u, hnext⟩ := hforever j
  cases hnext.symm.trans hfault

/-- A run that starts where the machine has stopped is over. -/
theorem eq_of_run_stopped {k : Nat} {s t : State} (hs : s.rs ≠ .running)
    (hrun : Host.Core.run Sys2Proof.core k s = .next t) : t = s := by
  cases k with
  | zero => exact (Host.Outcome.next.inj hrun).symm
  | succ k =>
    obtain ⟨f, hstep⟩ := step_stopped hs
    cases (run_succ_of_fault hstep k).symm.trans hrun

/-- A run has at most one end state, by induction on its length. -/
theorem end_unique {j k : Nat} {s t u : State} (ht : t.rs ≠ .running) (hu : u.rs ≠ .running)
    (hj : Host.Core.run Sys2Proof.core j s = .next t) (hk : Host.Core.run Sys2Proof.core k s = .next u) : u = t := by
  induction j generalizing s k with
  | zero =>
    obtain rfl : s = t := Host.Outcome.next.inj hj
    exact eq_of_run_stopped ht hk
  | succ j ih =>
    by_cases hs : s.rs = .running
    · obtain ⟨s', hstep⟩ := step_next_of_running hs
      cases k with
      | zero =>
        obtain rfl : s = u := Host.Outcome.next.inj hk
        exact absurd hs hu
      | succ k => exact ih ((run_succ_of_next hstep j).symm.trans hj) ((run_succ_of_next hstep k).symm.trans hk)
    · rw [eq_of_run_stopped hs hj, eq_of_run_stopped hs hk]

/-- A stopped machine has completed or gone wrong, and not both. -/
theorem completed_or_goneWrong {t : State} (ht : t.rs ≠ .running) :
    (t.completed ∧ ¬ t.goneWrong) ∨ (t.goneWrong ∧ ¬ t.completed) := by
  rw [State.completed, State.goneWrong]
  cases hrs : t.rs with
  | running => exact absurd hrs ht
  | halted => exact .inl ⟨rfl, by simp⟩
  | faulted => exact .inr ⟨rfl, by simp⟩

/-- Settles O54: a run with an end state does not go on for ever and has no second one; a run without goes on for ever. -/
theorem runEndsInOneWayOrNever : Obligations.RunEndsInOneWayOrNever := by
  intro s
  by_cases hend : ∃ t, s.endsIn t
  · obtain ⟨t, ht⟩ := hend
    refine .inr ⟨not_runsForever_of_end ht, t, ⟨ht, ?_⟩, fun u ⟨hu, _⟩ => ?_⟩ <;> obtain ⟨j, hj, hstopped⟩ := ht
    · exact completed_or_goneWrong hstopped
    · obtain ⟨k, hk, hstopped'⟩ := hu
      exact end_unique hstopped hstopped' hj hk
  · exact .inl ⟨runsForever_of_no_end hend, hend⟩

end Sys2Proof.Machine
end

section
/-! PROOF. When the host's events may happen and what sequences of moves there are (spec `70_reset_and_hazards.md` sections
1 to 3). -/

namespace Sys2Proof.Machine

/-! ### One move -/

/-- A cycle is accepted exactly after start, where the core steps. -/
theorem advance_eq_some_iff {h k : Session} :
    h.advance = some k ↔ h.phase = .started ∧ k.phase = .started ∧ step h.core = .next k.core := by
  obtain ⟨p, s⟩ := h
  obtain ⟨q, t⟩ := k
  constructor
  · intro hmove
    obtain ⟨hm, -⟩ | ⟨a, v, hm, -⟩ | ⟨hm, -⟩ | ⟨-, hcycle⟩ :=
      Session.move_cases (spReset := 0) (memFill := 0) (m := .cycle) hmove
    · cases hm
    · cases hm
    · cases hm
    · exact hcycle
  · rintro ⟨rfl, rfl, hstep⟩
    exact Session.advance_started hstep

/-- Settles O56: each event by the phase it looks at; a cycle by the phase and the step. -/
theorem hostEventsWhereAllowed : Obligations.HostEventsWhereAllowed := by
  rintro sp fill ⟨p, s⟩ k
  refine ⟨?reset, fun a v => ?load, ?start, advance_eq_some_iff, fun u => ?read⟩
  case reset => simp [eq_comm]
  case load => cases p <;> simp [State.load, eq_comm]
  case start => cases p <;> simp [State.start, eq_comm]
  case read => simp [Session.endState, and_assoc, eq_comm]

/-! ### What every sequence of moves keeps -/

/-- A property of sessions that each move of a sequence keeps is kept by the sequence. -/
theorem moves_keep {P : Session → Prop} {sp fill : Byte} {ms : List Move}
    (hmove : ∀ m ∈ ms, ∀ h k : Session, P h → h.move sp fill m = some k → P k) {h k : Session} (hh : P h)
    (hmoves : h.moves sp fill ms = some k) : P k := by
  induction ms generalizing h with
  | nil =>
    cases hmoves
    exact hh
  | cons m ms ih =>
    obtain ⟨hm, hms⟩ := List.forall_mem_cons.1 hmove
    obtain ⟨j, hj, hrest⟩ := Session.moves_cons.1 hmoves
    exact ih hms (hm h j hh hj) hrest

/-- Only a reset ends the phase after start. -/
theorem move_keeps_started {sp fill : Byte} {m : Move} (hm : m ≠ .host .reset) {h k : Session} (hh : h.phase = .started)
    (hmove : h.move sp fill m = some k) : m = .cycle ∧ k.phase = .started ∧ step h.core = .next k.core := by
  obtain ⟨hr, -⟩ | ⟨a, v, -, hp, -⟩ | ⟨-, hp, -⟩ | ⟨hcycle, -, hk, hstep⟩ := Session.move_cases hmove
  · exact absurd hr hm
  · cases hh.symm.trans hp
  · cases hh.symm.trans hp
  · exact ⟨hcycle, hk, hstep⟩

/-- Only a start ends the phase of loading. -/
theorem move_keeps_loading {sp fill : Byte} {m : Move} (hm : m ≠ .host .start) {h k : Session} (hh : h.phase = .loading)
    (hmove : h.move sp fill m = some k) : k.phase = .loading := by
  obtain ⟨-, rfl⟩ | ⟨a, v, -, -, rfl⟩ | ⟨hs, -⟩ | ⟨-, hp, -⟩ := Session.move_cases hmove
  · rfl
  · rfl
  · exact absurd hs hm
  · cases hh.symm.trans hp

/-- A load and a start need the phase of loading. -/
theorem loading_of_event {sp fill : Byte} {e : HostEvent} (he : e = .start ∨ ∃ a v, e = .load a v) {h k : Session}
    (hmove : h.move sp fill (.host e) = some k) : h.phase = .loading := by
  obtain ⟨hr, -⟩ | ⟨a, v, -, hp, -⟩ | ⟨-, hp, -⟩ | ⟨hc, -⟩ := Session.move_cases hmove
  · cases hr
    obtain he | ⟨a, v, he⟩ := he <;> cases he
  · exact hp
  · exact hp
  · cases hc

theorem started_of_start {sp fill : Byte} {h k : Session} (hmove : h.move sp fill (.host .start) = some k) :
    k.phase = .started := by
  obtain ⟨hm, -⟩ | ⟨a, v, hm, -⟩ | ⟨-, -, rfl⟩ | ⟨hm, -⟩ := Session.move_cases hmove
  · cases hm
  · cases hm
  · rfl
  · cases hm

/-- A sequence of moves between two others: the first, the sequence from where it led, and the last. -/
theorem moves_between {sp fill : Byte} {m m' : Move} {ms : List Move} {h k : Session}
    (hmoves : h.moves sp fill ([m] ++ ms ++ [m']) = some k) :
    ∃ i j, h.move sp fill m = some i ∧ i.moves sp fill ms = some j ∧ j.move sp fill m' = some k := by
  rw [List.append_assoc, List.singleton_append] at hmoves
  obtain ⟨i, hi, hrest⟩ := Session.moves_cons.1 hmoves
  rw [Session.moves_append] at hrest
  obtain ⟨j, hj, hlast⟩ := Option.bind_eq_some_iff.1 hrest
  obtain ⟨k', hk, hnil⟩ := Session.moves_cons.1 hlast
  obtain rfl : k' = k := Option.some.inj hnil
  exact ⟨i, j, hi, hj, hk⟩

/-- Settles O57: without a reset between, the session is still started where a load or start needs it loading; without a
start between, it is still loading where a cycle needs it started. -/
theorem eventsComeInOrder : Obligations.EventsComeInOrder := by
  refine fun sp fill ms h k => ⟨fun e he hmoves => ?_, fun hmoves => ?_⟩ <;>
    obtain ⟨i, j, hfirst, hbetween, hlast⟩ := moves_between hmoves <;> by_contra hnone
  · have hj : j.phase = .started := by
      refine moves_keep (P := fun h => h.phase = .started) (fun m hm _ _ hh hmove => ?_) (started_of_start hfirst) hbetween
      obtain ⟨-, hk, -⟩ := move_keeps_started (fun h => hnone (h ▸ hm)) hh hmove
      exact hk
    cases hj.symm.trans (loading_of_event he hlast)
  · obtain rfl : (⟨.loading, State.resetWith sp fill⟩ : Session) = i := Option.some.inj hfirst
    have hj : j.phase = .loading := moves_keep (P := fun h => h.phase = .loading)
      (fun m hm _ _ hh hmove => move_keeps_loading (fun h => hnone (h ▸ hm)) hh hmove) rfl hbetween
    obtain ⟨hstarted, -⟩ := advance_eq_some_iff.1 hlast
    cases hj.symm.trans hstarted

/-- Settles O58, by induction on the moves: each is a cycle, and a cycle is a step of the core. -/
theorem hostLeavesARunAlone : Obligations.HostLeavesARunAlone := by
  intro sp fill ms
  induction ms with
  | nil =>
    intro h k hh _ hmoves
    cases hmoves
    exact ⟨rfl, hh, rfl⟩
  | cons m ms ih =>
    intro h k hh hnone hmoves
    obtain ⟨hm, hms⟩ := not_or.1 fun h => hnone (List.mem_cons.2 h)
    obtain ⟨j, hj, hrest⟩ := Session.moves_cons.1 hmoves
    obtain ⟨rfl, hj', hstep⟩ := move_keeps_started (Ne.symm hm) hh hj
    obtain ⟨hcycles, hk, hrun⟩ := ih j k hj' hms hrest
    exact ⟨congrArg (Move.cycle :: ·) hcycles, hk, (run_succ_of_next hstep _).trans hrun⟩

/-! ### From reset to start -/

/-- The load events of an image write its bytes one after another. -/
theorem moves_imageEvents (sp fill : Byte) {a : Nat} {img : List Byte} (hfits : a + img.length ≤ 256) (s : State) :
    Session.moves sp fill ((imageEvents a img).map .host) ⟨.loading, s⟩ =
      some ⟨.loading, { s with mem := s.mem.writeFrom a img }⟩ := by
  induction img generalizing a s with
  | nil => rfl
  | cons v vs ih =>
    have hlen : (v :: vs).length = vs.length + 1 := rfl
    have ha : a < Config.memSize := by rw [Config.memSize]; omega
    have hrest : a + 1 + vs.length ≤ 256 := by omega
    refine (ih hrest (s.load (BitVec.ofNat 8 a) v)).trans ?_
    rw [Memory.writeFrom, if_pos ha]
    rfl

/-- Settles O59: the loads write what the launch places, and start does what the launch's start does. -/
theorem eventsGiveTheLaunchState : Obligations.EventsGiveTheLaunchState := by
  intro sp fill img h hlen
  refine ⟨_, launch_of_length_le hlen sp fill, ?_⟩
  have hloads := moves_imageEvents sp fill (a := 0) (img := img) (by omega) (State.resetWith sp fill)
  rw [List.cons_append]
  refine Session.moves_cons.2 ⟨_, rfl, ?_⟩
  rw [Session.moves_append, hloads]
  rfl

/-! ### The session's invariant -/

theorem load_keeps_inv {s : State} (hinv : s.Inv) (hrs : s.rs = .running) (a : Addr) (v : Byte) : (s.load a v).Inv where
  memory := State.load_wf hinv.memory a v
  flags := hinv.flags
  noRecord := hinv.noRecord
  record h := by rw [State.load_rs, hrs] at h; cases h

theorem start_keeps_inv {s : State} (hinv : s.Inv) (hrs : s.rs = .running) : s.start.Inv where
  memory := hinv.memory
  flags := hinv.flags
  noRecord _ := hinv.noRecord (by simp [hrs])
  record h := by cases h

theorem reset_session_inv (sp fill : Byte) : Session.Inv ⟨.loading, State.resetWith sp fill⟩ :=
  ⟨resetWith_inv sp fill, fun _ => rfl⟩

theorem move_keeps_inv {sp fill : Byte} {m : Move} {h k : Session} (hinv : h.Inv) (hmove : h.move sp fill m = some k) :
    k.Inv := by
  obtain ⟨-, rfl⟩ | ⟨a, v, -, hp, rfl⟩ | ⟨-, hp, rfl⟩ | ⟨-, -, hk, hstep⟩ := Session.move_cases hmove
  · exact reset_session_inv sp fill
  · exact ⟨load_keeps_inv hinv.core (hinv.loading hp) a v, fun _ => hinv.loading hp⟩
  · exact ⟨start_keeps_inv hinv.core (hinv.loading hp), fun _ => rfl⟩
  · exact ⟨stepKeepsInvariant _ _ hinv.core hstep, fun hloading => by cases hk.symm.trans hloading⟩

/-- Settles O60: every move keeps the invariant, and a reset meets it whatever the session was before. -/
theorem movesKeepInvariant : Obligations.MovesKeepInvariant := by
  refine fun sp fill ms h k => ⟨moves_keep fun _ _ _ _ => move_keeps_inv, fun hmoves => ?_⟩
  obtain ⟨j, hj, hrest⟩ := Session.moves_cons.1 hmoves
  obtain rfl := Option.some.inj hj
  exact moves_keep (fun _ _ _ _ => move_keeps_inv) (reset_session_inv sp fill) hrest

end Sys2Proof.Machine
end

section
/-! PROOF. A listing stands for its bytes (spec `30_encoding.md` section 5; decision D22, log entry 24): each written line
splits back into its words, the words read back to the instruction, and a name is known at the address of the byte after
it. -/

namespace Sys2Proof.Machine

/-! ### The words of a line -/

/-- One character put before the words of what follows it, as `words` does. -/
def wordsCons (c : Char) (ws : List (List Char)) : List (List Char) :=
  if c.isWhitespace then [] :: ws else (c :: ws.headD []) :: ws.tail

theorem words_of_no_comment {l : List Char} (h : ∀ c ∈ l, c ≠ ';') :
    words l = (l.foldr wordsCons [[]]).filter (fun w => decide (w ≠ [])) := by
  have hall : l.takeWhile (fun c => decide (c ≠ ';')) = l :=
    List.takeWhile_eq_self_iff.2 fun c hc => decide_eq_true (h c hc)
  rw [words, hall]
  rfl

/-- A character that neither ends a word nor begins a comment. -/
def isPlainChar (c : Char) : Bool := !c.isWhitespace && c != ';'

theorem isPlainChar_iff {c : Char} : isPlainChar c = true ↔ c.isWhitespace = false ∧ c ≠ ';' := by
  simp [isPlainChar]

/-- A word as it may stand in a line. -/
abbrev PlainWord (w : List Char) : Prop := w ≠ [] ∧ w.all isPlainChar = true

theorem PlainWord.chars {w : List Char} (h : PlainWord w) : ∀ c ∈ w, c.isWhitespace = false ∧ c ≠ ';' :=
  fun c hc => isPlainChar_iff.1 (List.all_eq_true.1 h.2 c hc)

theorem foldr_wordsCons_plain {w : List Char} (hw : ∀ c ∈ w, c.isWhitespace = false) (v : List Char)
    (ws : List (List Char)) : w.foldr wordsCons (v :: ws) = (w ++ v) :: ws := by
  induction w with
  | nil => rfl
  | cons c w ih =>
    obtain ⟨hc, hw⟩ := List.forall_mem_cons.1 hw
    rw [List.foldr_cons, ih hw, wordsCons, hc]
    rfl

theorem foldr_wordsCons_operands {ops : List (List Char)} (h : ∀ o ∈ ops, PlainWord o) :
    (ops.flatMap fun o => ' ' :: o).foldr wordsCons [[]] = [] :: ops := by
  induction ops with
  | nil => rfl
  | cons o ops ih =>
    obtain ⟨ho, hops⟩ := List.forall_mem_cons.1 h
    rw [List.flatMap_cons, List.foldr_append, ih hops, List.foldr_cons,
      foldr_wordsCons_plain (fun c hc => (ho.chars c hc).1), List.append_nil]
    rfl

/-- A line splits back into its mnemonic and its operands. -/
theorem words_assemblyLine {m : String} {ops : List (List Char)} (hm : PlainWord m.toList)
    (hops : ∀ o ∈ ops, PlainWord o) : words (assemblyLine m ops) = m.toList :: ops := by
  have hcomment : ∀ c ∈ assemblyLine m ops, c ≠ ';' := by
    intro c hc
    obtain hc | hc := List.mem_append.1 hc
    · exact (hm.chars c hc).2
    · obtain ⟨o, ho, hc⟩ := List.mem_flatMap.1 hc
      obtain rfl | hc := List.mem_cons.1 hc
      · decide
      · exact ((hops o ho).chars c hc).2
  rw [words_of_no_comment hcomment, assemblyLine, List.foldr_append, foldr_wordsCons_operands hops,
    foldr_wordsCons_plain (fun c hc => (hm.chars c hc).1), List.append_nil]
  refine List.filter_eq_self.2 fun w hw => decide_eq_true ?_
  exact (List.forall_mem_cons.2 ⟨hm, hops⟩ w hw).1

/-- A digit stands above the white space and below the comment sign. -/
theorem isPlainChar_of_isDigit {c : Char} (h : c.isDigit = true) : isPlainChar c = true := by
  refine isPlainChar_iff.2 ⟨?_, by rintro rfl; cases h⟩
  rw [← Bool.not_eq_true]
  intro hspace
  obtain ((rfl | rfl) | rfl) | rfl : ((c = ' ' ∨ c = '\t') ∨ c = '\r') ∨ c = '\n' := by
    simpa [Char.isWhitespace, or_assoc] using hspace
  all_goals cases h

theorem plainWord_decimalNumeral (v : Byte) : PlainWord (decimalNumeral v) :=
  ⟨Nat.toDigits_ne_nil, List.all_eq_true.2 fun _ hc =>
    isPlainChar_of_isDigit (Nat.isDigit_of_mem_toDigits (by decide) le_rfl hc)⟩

theorem plainWord_registerName (a : Byte) : PlainWord (registerName a) := by
  obtain ⟨-, hdigits⟩ := plainWord_decimalNumeral a
  exact ⟨List.cons_ne_nil _ _, List.all_cons.trans (Bool.and_eq_true_iff.2 ⟨rfl, hdigits⟩)⟩

theorem plainWords_singleton {o : List Char} (h : PlainWord o) : ∀ q ∈ [o], PlainWord q :=
  List.forall_mem_singleton.2 h

theorem plainWords_pair {o p : List Char} (ho : PlainWord o) (hp : PlainWord p) : ∀ q ∈ [o, p], PlainWord q :=
  List.forall_mem_cons.2 ⟨ho, plainWords_singleton hp⟩

/-! ### One line -/

/-- The line is read, with these names, as the instruction, and has no name of its own. -/
structure ReadsAs (labels : Labels) (l : List Char) (i : Instr) : Prop where
  noLabel : (splitLabels (words l)).1 = []
  size : lineSize (splitLabels (words l)).2 = (encode i).length
  reads : readInstr labels (splitLabels (words l)).2 = some i

theorem lookupMnemonic_some {m : List Char} {row : OpcodeRow} (h : lookupMnemonic m = some row) :
    row ∈ opcodeTable ∧ row.mnemonic.toList = m :=
  ⟨List.mem_of_find?_eq_some h, by simpa using List.find?_some h⟩

/-- A mnemonic of the table is a word, and no name. -/
theorem plainWord_mnemonic {m : List Char} {row : OpcodeRow} (h : lookupMnemonic m = some row) :
    PlainWord m ∧ m.getLast? ≠ some ':' := by
  obtain ⟨hmem, rfl⟩ := lookupMnemonic_some h
  have allRows : ∀ r ∈ opcodeTable, PlainWord r.mnemonic.toList ∧ r.mnemonic.toList.getLast? ≠ some ':' := by decide
  exact allRows row hmem

section
variable {labels : Labels} {m : String} {row : OpcodeRow} {i : Instr} {a b : Byte}
  (hrow : lookupMnemonic m.toList = some row)
include hrow

/-- A line whose words read as what its mnemonic's row builds. -/
theorem readsAs_of_readInstr {ops : List (List Char)} (hops : ∀ o ∈ ops, PlainWord o) (hi : row.build a b = i)
    (hread : readInstr labels (m.toList :: ops) = some i) : ReadsAs labels (assemblyLine m ops) i := by
  obtain ⟨hplain, hlast⟩ := plainWord_mnemonic hrow
  have hsplit : splitLabels (words (assemblyLine m ops)) = ([], m.toList :: ops) := by
    rw [words_assemblyLine hplain hops, splitLabels, if_neg hlast]
  obtain ⟨hmem, -⟩ := lookupMnemonic_some hrow
  refine ⟨by rw [hsplit], ?_, by rw [hsplit, hread]⟩
  rw [hsplit, ← hi, length_encode_build hmem]
  simp only [lineSize, hrow]

theorem readsAs_noOperand (hn : row.operands = 0) (hi : row.build 0 0 = i) : ReadsAs labels (assemblyLine m []) i := by
  refine readsAs_of_readInstr hrow (by simp) hi ?_
  simp only [readInstr, hrow, Option.bind_some, hn, hi]

theorem readsAs_oneRegister (hn : row.operands = 1) (hi : row.build a 0 = i) (ha : a.toNat < 8) :
    ReadsAs labels (assemblyLine m [registerName a]) i := by
  refine readsAs_of_readInstr hrow (plainWords_singleton (plainWord_registerName a)) hi ?_
  simp only [readInstr, hrow, Option.bind_some, hn, hi, readRegister_registerName a (Nat.le_of_lt_succ ha)]

/-- The second operand is read as a number or a name for LDI, as a register for the other rows. -/
theorem readsAs_twoOperands {w : List Char} (hn : row.operands = 2) (hi : row.build a b = i) (ha : a.toNat < 8)
    (hw : PlainWord w)
    (hb : (if row.mnemonic = "LDI" then readImmediate labels w else readRegister w) = some b) :
    ReadsAs labels (assemblyLine m [registerName a, w]) i := by
  refine readsAs_of_readInstr hrow (plainWords_pair (plainWord_registerName a) hw) hi ?_
  simp only [readInstr, hrow, Option.bind_some, hn, hi, readRegister_registerName a (Nat.le_of_lt_succ ha), hb]

theorem readsAs_twoRegisters (hn : row.operands = 2) (hldi : row.mnemonic ≠ "LDI") (hi : row.build a b = i)
    (ha : a.toNat < 8) (hb : b.toNat < 8) : ReadsAs labels (assemblyLine m [registerName a, registerName b]) i :=
  readsAs_twoOperands hrow hn hi ha (plainWord_registerName b)
    ((if_neg hldi).trans (readRegister_registerName b (Nat.le_of_lt_succ hb)))

end

/-- An LDI of a number or of a name. -/
theorem readsAs_ldi {labels : Labels} {a v : Byte} {w : List Char} (ha : a.toNat < 8) (hw : PlainWord w)
    (hread : readImmediate labels w = some v) : ReadsAs labels (assemblyLine "LDI" [registerName a, w]) (.ldi a v) := by
  have hrow : lookupMnemonic "LDI".toList = some ⟨0x82, "LDI", 2, fun a b => .ldi a b⟩ := rfl
  exact readsAs_twoOperands hrow rfl rfl ha hw ((if_pos rfl).trans hread)

/-- A well-formed instruction reads back, whatever names there are. -/
theorem readsAs_assembly {i : Instr} (hwf : i.wellFormed = true) (labels : Labels) : ReadsAs labels (assembly i) i := by
  have hregs := wellFormed_iff_registerOperands.1 hwf
  cases i
  case hlt => exact readsAs_noOperand (m := "HLT") rfl rfl rfl
  case ret => exact readsAs_noOperand (m := "RET") rfl rfl rfl
  all_goals have ha := hregs _ List.mem_cons_self
  case ldi a imm => exact readsAs_ldi ha (plainWord_decimalNumeral imm) (readImmediate_decimalNumeral labels imm)
  case prn a => exact readsAs_oneRegister (m := "PRN") rfl rfl rfl ha
  case push a => exact readsAs_oneRegister (m := "PUSH") rfl rfl rfl ha
  case pop a => exact readsAs_oneRegister (m := "POP") rfl rfl rfl ha
  case call a => exact readsAs_oneRegister (m := "CALL") rfl rfl rfl ha
  case jeq a => exact readsAs_oneRegister (m := "JEQ") rfl rfl rfl ha
  case jne a => exact readsAs_oneRegister (m := "JNE") rfl rfl rfl ha
  case jmp a => exact readsAs_oneRegister (m := "JMP") rfl rfl rfl ha
  all_goals have hb := hregs _ (List.mem_cons_of_mem _ List.mem_cons_self)
  case mul a b => exact readsAs_twoRegisters (m := "MUL") rfl rfl (by decide) rfl ha hb
  case add a b => exact readsAs_twoRegisters (m := "ADD") rfl rfl (by decide) rfl ha hb
  case cmp a b => exact readsAs_twoRegisters (m := "CMP") rfl rfl (by decide) rfl ha hb

/-! ### A listing -/

theorem assembleLines_cons_of_readsAs {labels : Labels} {l : List Char} {i : Instr} (h : ReadsAs labels l i)
    {ls : List (List Char)} {bs : List Byte} (hls : assembleLines labels ls = some bs) :
    assembleLines labels (l :: ls) = some (encode i ++ bs) := by
  have hne : (splitLabels (words l)).2 ≠ [] := fun hnil => by
    have hreads := h.reads
    rw [hnil] at hreads
    cases hreads
  rw [assembleLines, if_neg hne, h.reads, hls]
  rfl

theorem labelsFrom_cons_of_readsAs {labels : Labels} {l : List Char} {i : Instr} (h : ReadsAs labels l i) (a : Nat)
    (ls : List (List Char)) : labelsFrom a (l :: ls) = labelsFrom (a + (encode i).length) ls := by
  rw [labelsFrom, h.noLabel, h.size]
  rfl

/-- Written instructions before other lines give their bytes before those of the lines. -/
theorem assembleLines_append {is : List Instr} (his : ∀ i ∈ is, i.wellFormed = true) {labels : Labels}
    {ls : List (List Char)} {bs : List Byte} (hls : assembleLines labels ls = some bs) :
    assembleLines labels (is.map assembly ++ ls) = some (is.flatMap encode ++ bs) := by
  induction is with
  | nil => exact hls
  | cons i is ih =>
    obtain ⟨hi, his⟩ := List.forall_mem_cons.1 his
    rw [List.flatMap_cons, List.append_assoc]
    exact assembleLines_cons_of_readsAs (readsAs_assembly hi labels) (ih his)

theorem assembleLines_map_assembly {is : List Instr} (his : ∀ i ∈ is, i.wellFormed = true) (labels : Labels) :
    assembleLines labels (is.map assembly) = some (is.flatMap encode) := by
  simpa using assembleLines_append his (labels := labels) (ls := []) rfl

/-- Written instructions have no names and move the addresses of the names after them by their bytes. -/
theorem labelsFrom_append {is : List Instr} (his : ∀ i ∈ is, i.wellFormed = true) (a : Nat) (ls : List (List Char)) :
    labelsFrom a (is.map assembly ++ ls) = labelsFrom (a + (is.flatMap encode).length) ls := by
  induction is generalizing a with
  | nil => rfl
  | cons i is ih =>
    obtain ⟨hi, his⟩ := List.forall_mem_cons.1 his
    rw [List.map_cons, List.cons_append, labelsFrom_cons_of_readsAs (readsAs_assembly hi []), ih his, List.flatMap_cons,
      List.length_append, Nat.add_assoc]

/-- A line that holds only the name `top`. -/
theorem splitLabels_top : splitLabels (words "top:".toList) = (["top".toList], []) := by decide

theorem assembleLines_cons_top (labels : Labels) {ls : List (List Char)} {bs : List Byte}
    (hls : assembleLines labels ls = some bs) : assembleLines labels ("top:".toList :: ls) = some bs := by
  rw [assembleLines, splitLabels_top, if_pos rfl, hls]
  rfl

/-- `top` is no number, so where it is the first name it is read as the address it stands for. -/
theorem readImmediate_top {n : Nat} (hn : n ≤ 255) (labels : Labels) :
    readImmediate (("top".toList, n) :: labels) "top".toList = some (BitVec.ofNat 8 n) := by
  have hnumber : immediateNumber "top".toList = none := by decide
  rw [readImmediate, hnumber, List.lookup_cons_self, Option.none_or, Option.bind_some, if_pos hn]

/-- The names of a listing that has the line `top:` after written instructions: `top` is the first. -/
theorem labelsFrom_append_top {is : List Instr} (his : ∀ i ∈ is, i.wellFormed = true) (ls : List (List Char)) :
    ∃ labels, labelsFrom Config.loadBase (is.map assembly ++ "top:".toList :: ls) =
      ("top".toList, (is.flatMap encode).length) :: labels := by
  rw [labelsFrom_append his, labelsFrom, splitLabels_top]
  exact ⟨_, by rw [Config.loadBase, Nat.zero_add]; rfl⟩

/-- Settles O5: by induction on the instructions each line gives its bytes, and the line `top:` gives none but makes the
name known at the number of bytes before it. -/
theorem assemblyStandsForItsBytes : Obligations.AssemblyStandsForItsBytes := by
  refine ⟨fun is his => assembleLines_map_assembly his _, fun is js a his hjs ha hlen => ?_⟩
  rw [List.append_assoc, List.append_assoc, assemble]
  obtain ⟨labels, hlabels⟩ := labelsFrom_append_top his
    (assemblyLine "LDI" [registerName a, "top".toList] :: js.map assembly)
  have hldi := readsAs_ldi (w := "top".toList) (Nat.lt_succ_of_le ha) (by decide) (readImmediate_top hlen labels)
  have hrest := assembleLines_cons_of_readsAs hldi (assembleLines_map_assembly hjs _)
  refine Eq.trans (congrArg (assembleLines · _) hlabels) ?_
  exact assembleLines_append his (assembleLines_cons_top _ hrest)

end Sys2Proof.Machine
end
